-- ==== Sys2Proof/Word.lean ====
section
/-! DEFINITION. The byte, the 256-entry table and the packet: the plain data every other file speaks of. -/

namespace Sys2Proof

/-- A byte, "always an unsigned value 0..255" (R9). Its `+` and `-` are modulo 256 (R13 (a)). -/
abbrev Byte := BitVec 8

/-- A table of 256 entries of 8 bits (R24, R25, R27). Every index 0..255 has an entry, so no
table access can fault (R51). -/
abbrev Table := Vector Byte 256

/-- "the identity permutation 0..255": entry `x` is `x` (R35, R110, R170). -/
def Table.identity : Table := ⟨((List.range 256).map (BitVec.ofNat 8)).toArray, by simp⟩

/-- A packet of the command port or of the response port: at least one byte (R60, R61, R80).
`first` is the opcode of a command and the status of a response. -/
structure Packet where
  first : Byte
  rest : List Byte
  deriving DecidableEq, Repr

/-- The packet as the port transfers it, first byte first (R60). -/
def Packet.bytes (p : Packet) : List Byte := p.first :: p.rest

end Sys2Proof
end

