-- ==== Sys2Proof/Config.lean ====
section
/-! DEFINITION. The construction parameters of the core (R7, R8) and the one function the spec leaves open (R172). -/

namespace Sys2Proof

/-- `NONCE_BYTES`, the byte width of the sequence number and the nonce: "The legal values are
exactly 2 and 3; a core built with any other value is outside this spec" (R8). -/
inductive NonceBytes where
  | two
  | three
  deriving DecidableEq, Repr

/-- `NONCE_BYTES` as a number (R7). -/
def NonceBytes.count : NonceBytes → Nat
  | .two => 2
  | .three => 3

/-- `SEQ_MOD = 2^SEQ_BITS` with `SEQ_BITS = 8 * NONCE_BYTES` (R8). -/
def NonceBytes.seqMod (nb : NonceBytes) : Nat := 2 ^ (8 * nb.count)

/-- The `NONCE_BYTES` of the core `State.reset` stands for.
DESIGN CHOICE (notes/assumptions/5): the spec makes it an argument; `State.resetCore` is the reset
of either core, and `State.nonceBytes` carries the value in every state. unsafe for a claim about
`State.reset` alone. -/
def Config.nonceBytes : NonceBytes := .two

/-- `AB_SEED` (R172): "an OPEN parameter: a total function from a 16-bit and an 8-bit value to two
8-bit values, of which this spec assumes nothing except that its result depends on its two
arguments alone". A free value with no body (notes/assumptions/7); safe. -/
opaque Config.abSeed : BitVec 16 → Byte → Byte × Byte

end Sys2Proof
end

