-- ==== Sys2Proof/Syntax.lean ====
section
/-! DEFINITION. The 24 commands of spec/opcode_table.json (R86), one constructor a row, with the operands of R83. -/

namespace Sys2Proof

/-- A command with its assembled operands (R83, R86). `SEQ` operands are held in 24 bits, the
widest `SEQ_BITS` (R8); on a core with `NONCE_BYTES = 2` the encoding holds the low 16. -/
inductive Instr where
  /-- `01`, format N (R124). -/
  | peInit
  /-- `02`, format P (R125). -/
  | peAbsorb (payload : List Byte)
  /-- `03`, format N (R126). -/
  | peAbsorbStop
  /-- `04`, format N (R127). -/
  | peShuffle
  /-- `05`, format N (R128). -/
  | peDrip
  /-- `06`, format C (R129). -/
  | peSqueeze (cnt : BitVec 16)
  /-- `07`, format N (R130). -/
  | peSetPrime
  /-- `08`, format N (R131). -/
  | peGetPrime
  /-- `09`, format H (R132). -/
  | peHash (outLen : BitVec 16) (message : List Byte)
  /-- `0A`, format M (R133); `KLEN` is the length of `key`. -/
  | peMac (outLen : BitVec 16) (key message : List Byte)
  /-- `20`, format P (R151). -/
  | csSetKey (key : List Byte)
  /-- `21`, format N (R152). -/
  | csNewSeq
  /-- `22`, format N (R153). -/
  | csNewSend
  /-- `23`, format Q (R154). -/
  | csNewRecv (seq : BitVec 24)
  /-- `24`, format P (R155). -/
  | csEncrypt (src : List Byte)
  /-- `25`, format P (R156). -/
  | csDecrypt (src : List Byte)
  /-- `26`, format N (R157). -/
  | csRdSeq
  /-- `40`, format P (R174). -/
  | abSetKey (key : List Byte)
  /-- `41`, format N (R175). -/
  | abNewSeq
  /-- `42`, format N (R176). -/
  | abNewSend
  /-- `43`, format R (R177). -/
  | abNewRecv (aseq : BitVec 16) (roll : Byte)
  /-- `44`, format P (R178). -/
  | abCombine (src : List Byte)
  /-- `46`, format N (R179). -/
  | abRdSeq
  /-- `F0`, format N (R190). -/
  | sysRdStat
  deriving DecidableEq, Repr

end Sys2Proof
end

