-- ==== Sys2Proof/WellFormed.lean ====
section
/-! DEFINITION. Which commands have a packet on a given core: the operands fit their fields (R81, R83, R88). -/

namespace Sys2Proof

/-- A command is well formed on a core with `NONCE_BYTES = nb` when every operand fits its field:
the `SEQ` operand of format Q is below `SEQ_MOD`, and the key of format M is no longer than the
16-bit `KLEN` can say (R83). "Operand values are never illegal or reserved" (R88), so nothing else
is asked. -/
def Instr.wellFormed (nb : NonceBytes) : Instr → Bool
  | .peInit => true
  | .peAbsorb _ => true
  | .peAbsorbStop => true
  | .peShuffle => true
  | .peDrip => true
  | .peSqueeze _ => true
  | .peSetPrime => true
  | .peGetPrime => true
  | .peHash _ _ => true
  | .peMac _ key _ => decide (key.length < 65536)
  | .csSetKey _ => true
  | .csNewSeq => true
  | .csNewSend => true
  | .csNewRecv seq => decide (seq.toNat < nb.seqMod)
  | .csEncrypt _ => true
  | .csDecrypt _ => true
  | .csRdSeq => true
  | .abSetKey _ => true
  | .abNewSeq => true
  | .abNewSend => true
  | .abNewRecv _ _ => true
  | .abCombine _ => true
  | .abRdSeq => true
  | .sysRdStat => true

end Sys2Proof
end

