-- ==== Sys2Proof/Decode.lean ====
section
/-! DEFINITION. The error names (R200), operand assembly (R83), the decoder of R86 and R82, total on every packet, and the encoder. -/

namespace Sys2Proof

/-- The complete list of errors (R200). -/
inductive Error where
  | invalidKeyLength
  | notKeyed
  | illegalCommand
  | malformedCommand
  | primeInvalid
  deriving DecidableEq, Repr

/-- The code of an error, "the value of the response's status byte" (R200). -/
def Error.code : Error → Byte
  | .invalidKeyLength => 0x01
  | .notKeyed => 0x02
  | .illegalCommand => 0x03
  | .malformedCommand => 0x04
  | .primeInvalid => 0x05

/-! ### Multi-byte fields, big-endian (R10, R56) -/

/-- `be(b0, b1)` (R11). -/
def be16 (b0 b1 : Byte) : BitVec 16 := b0 ++ b1

/-- `be(b0, b1, b2)` (R11). -/
def be24 (b0 b1 b2 : Byte) : BitVec 24 := b0 ++ b1 ++ b2

/-- `bytes_be(v, 2)` (R11): `v[15:8]`, then `v[7:0]`. -/
def bytesBe16 (v : BitVec 16) : List Byte := [v.extractLsb' 8 8, v.extractLsb' 0 8]

/-- `bytes_be(v, NONCE_BYTES)` (R11, R54): the most significant byte first. -/
def seqBytes (nb : NonceBytes) (v : BitVec 24) : List Byte :=
  match nb with
  | .two => [v.extractLsb' 8 8, v.extractLsb' 0 8]
  | .three => [v.extractLsb' 16 8, v.extractLsb' 8 8, v.extractLsb' 0 8]

/-- `be(b[0], .., b[NONCE_BYTES-1])` (R83, R152) of exactly `NONCE_BYTES` bytes; `none` for any
other number of bytes. -/
def seqOfBytes (nb : NonceBytes) (bs : List Byte) : Option (BitVec 24) :=
  match nb, bs with
  | .two, [b0, b1] => some (be24 0 b0 b1)
  | .three, [b0, b1, b2] => some (be24 b0 b1 b2)
  | _, _ => none

/-! ### The seven formats (R81): the operand bytes after the opcode, or `MalformedCommand` (R82) -/

/-- Format N: exactly 1 byte. -/
def parseN (i : Instr) : List Byte → Except Error Instr
  | [] => .ok i
  | _ :: _ => .error .malformedCommand

/-- Format P: any length. -/
def parseP (f : List Byte → Instr) (rest : List Byte) : Except Error Instr := .ok (f rest)

/-- Format C: exactly 3 bytes, `CNT` big-endian. -/
def parseC (f : BitVec 16 → Instr) : List Byte → Except Error Instr
  | [c1, c0] => .ok (f (be16 c1 c0))
  | _ => .error .malformedCommand

/-- Format H: at least 3 bytes, `OUTLEN` big-endian, then the message. -/
def parseH (f : BitVec 16 → List Byte → Instr) : List Byte → Except Error Instr
  | o1 :: o0 :: message => .ok (f (be16 o1 o0) message)
  | _ => .error .malformedCommand

/-- Format M: at least `5 + KLEN` bytes; `KLEN` key bytes, then the message. -/
def parseM (f : BitVec 16 → List Byte → List Byte → Instr) : List Byte → Except Error Instr
  | o1 :: o0 :: k1 :: k0 :: body =>
    if (be16 k1 k0).toNat ≤ body.length then
      .ok (f (be16 o1 o0) (body.take (be16 k1 k0).toNat) (body.drop (be16 k1 k0).toNat))
    else .error .malformedCommand
  | _ => .error .malformedCommand

/-- Format Q: exactly `1 + NONCE_BYTES` bytes. -/
def parseQ (nb : NonceBytes) (f : BitVec 24 → Instr) (rest : List Byte) : Except Error Instr :=
  match seqOfBytes nb rest with
  | some seq => .ok (f seq)
  | none => .error .malformedCommand

/-- Format R: exactly 4 bytes, `ASEQ` big-endian, then `ROLL`. -/
def parseR (f : BitVec 16 → Byte → Instr) : List Byte → Except Error Instr
  | [a1, a0, roll] => .ok (f (be16 a1 a0) roll)
  | _ => .error .malformedCommand

/-- The decoder of R86 on a core with `NONCE_BYTES = nb`: "look `cmd[0]` up in this table; if
absent, `IllegalCommand`; if present, check `L` against the format". -/
def decode (nb : NonceBytes) (p : Packet) : Except Error Instr :=
  match p.first.toNat with
  | 0x01 => parseN .peInit p.rest
  | 0x02 => parseP .peAbsorb p.rest
  | 0x03 => parseN .peAbsorbStop p.rest
  | 0x04 => parseN .peShuffle p.rest
  | 0x05 => parseN .peDrip p.rest
  | 0x06 => parseC .peSqueeze p.rest
  | 0x07 => parseN .peSetPrime p.rest
  | 0x08 => parseN .peGetPrime p.rest
  | 0x09 => parseH .peHash p.rest
  | 0x0A => parseM .peMac p.rest
  | 0x20 => parseP .csSetKey p.rest
  | 0x21 => parseN .csNewSeq p.rest
  | 0x22 => parseN .csNewSend p.rest
  | 0x23 => parseQ nb .csNewRecv p.rest
  | 0x24 => parseP .csEncrypt p.rest
  | 0x25 => parseP .csDecrypt p.rest
  | 0x26 => parseN .csRdSeq p.rest
  | 0x40 => parseP .abSetKey p.rest
  | 0x41 => parseN .abNewSeq p.rest
  | 0x42 => parseN .abNewSend p.rest
  | 0x43 => parseR .abNewRecv p.rest
  | 0x44 => parseP .abCombine p.rest
  | 0x46 => parseN .abRdSeq p.rest
  | 0xF0 => parseN .sysRdStat p.rest
  | _ => .error .illegalCommand

/-! ### The encoder, written from R81 and R86 -/

/-- The opcode column of R86. -/
def Instr.opcode : Instr → Byte
  | .peInit => 0x01
  | .peAbsorb _ => 0x02
  | .peAbsorbStop => 0x03
  | .peShuffle => 0x04
  | .peDrip => 0x05
  | .peSqueeze _ => 0x06
  | .peSetPrime => 0x07
  | .peGetPrime => 0x08
  | .peHash _ _ => 0x09
  | .peMac _ _ _ => 0x0A
  | .csSetKey _ => 0x20
  | .csNewSeq => 0x21
  | .csNewSend => 0x22
  | .csNewRecv _ => 0x23
  | .csEncrypt _ => 0x24
  | .csDecrypt _ => 0x25
  | .csRdSeq => 0x26
  | .abSetKey _ => 0x40
  | .abNewSeq => 0x41
  | .abNewSend => 0x42
  | .abNewRecv _ _ => 0x43
  | .abCombine _ => 0x44
  | .abRdSeq => 0x46
  | .sysRdStat => 0xF0

/-- The operand bytes of a command, laid out per its format (R81). -/
def Instr.operandBytes (nb : NonceBytes) : Instr → List Byte
  | .peInit => []
  | .peAbsorb payload => payload
  | .peAbsorbStop => []
  | .peShuffle => []
  | .peDrip => []
  | .peSqueeze cnt => bytesBe16 cnt
  | .peSetPrime => []
  | .peGetPrime => []
  | .peHash outLen message => bytesBe16 outLen ++ message
  | .peMac outLen key message =>
    bytesBe16 outLen ++ bytesBe16 (BitVec.ofNat 16 key.length) ++ key ++ message
  | .csSetKey key => key
  | .csNewSeq => []
  | .csNewSend => []
  | .csNewRecv seq => seqBytes nb seq
  | .csEncrypt src => src
  | .csDecrypt src => src
  | .csRdSeq => []
  | .abSetKey key => key
  | .abNewSeq => []
  | .abNewSend => []
  | .abNewRecv aseq roll => bytesBe16 aseq ++ [roll]
  | .abCombine src => src
  | .abRdSeq => []
  | .sysRdStat => []

/-- The packet of a command on a core with `NONCE_BYTES = nb` (R80, R81, R86). -/
def encode (nb : NonceBytes) (i : Instr) : Packet := ⟨i.opcode, i.operandBytes nb⟩

/-! ### Packets given as numbers, for the host's look at the opcode table -/

/-- The fewest operand bytes a legal packet with opcode `op` has (R81): the field bytes of its
format, with an empty payload, key and message. -/
def minOperands (nb : NonceBytes) (op : Byte) : Nat :=
  match op.toNat with
  | 0x06 => 2
  | 0x09 => 2
  | 0x0A => 4
  | 0x23 => nb.count
  | 0x43 => 3
  | _ => 0

/-- The packet whose byte `t` is bits `8t+7..8t` of `w`, with `nbits / 8` bytes and then zero bytes
up to the shortest legal packet of its opcode (notes/assumptions/14). -/
def wordPacket (nb : NonceBytes) (nbits w : Nat) : Packet :=
  let rest := (List.range (nbits / 8 - 1)).map fun t => BitVec.ofNat 8 (w >>> (8 * (t + 1)))
  ⟨BitVec.ofNat 8 w, rest ++ List.replicate (minOperands nb (BitVec.ofNat 8 w) - rest.length) 0⟩

/-- What the decoder reads from an instruction whose bits are `w`, on the core `State.reset`
stands for. -/
def decodeTableWord (nbits w : Nat) : Option Instr :=
  match decode Config.nonceBytes (wordPacket Config.nonceBytes nbits w) with
  | .ok i => some i
  | .error _ => none

end Sys2Proof
end

