-- ==== Sys2Proof/Machine/State.lean ====
section
/-! DEFINITION. The architectural state of one core instance (R20), its ports (R60 to R62), the reasons a step can stop, and the state after reset (R35, R230). -/

namespace Sys2Proof.Machine

/-- "a full copy of the permutation table plus all six registers" (R25): the shape of the PE live
state (R21, R24) and of its snapshot. `z` is the last keystream byte, `a` the count of nibbles
absorbed since the last shuffle, `w` the stride of `update` (R21). -/
structure Engine where
  i : Byte
  j : Byte
  k : Byte
  z : Byte
  a : Byte
  w : Byte
  S : Table
  deriving DecidableEq, Repr

/-- A command the core has accepted and holds until the RNG port has its bytes (R212). -/
inductive Held where
  | csNewSeq
  | abNewSeq
  deriving DecidableEq, Repr

/-- The state of one core instance (R20) and what stands at its ports. -/
structure State where
  /-- PE live registers and table (R21, R24). -/
  pe : Engine
  /-- PE snapshot `pi .. pw`, `PS` (R25); absent until first captured (R35). -/
  prime : Option Engine
  /-- `SEQ` (R26), below `SEQ_MOD`. -/
  seq : BitVec 24
  /-- AB live table `T` (R27); absent until `AB.SETKEY` (R35). -/
  T : Option Table
  /-- AB snapshot table `PT` (R27); absent until `AB.SETKEY` (R35). -/
  PT : Option Table
  /-- `ASEQ` (R28). -/
  aseq : BitVec 16
  /-- `ROLL` (R28). -/
  roll : Byte
  /-- `FLAGS` (R30). -/
  flags : Byte
  /-- `ERR` (R31). -/
  err : Byte
  /-- `NONCE_BYTES`, static (R8); `CONFIG` (R32) is its read-out, `State.config`. -/
  nonceBytes : NonceBytes
  /-- Idle (`none`) or busy with a command that waits for RNG bytes (R68, R212). -/
  held : Option Held
  /-- Command port (R60): the packets presented and not yet accepted, oldest first. -/
  commands : List Packet
  /-- RNG port (R62): the bytes ready, first to be taken first. -/
  rng : List Byte
  /-- Response port (R61): the response packets produced, oldest first. -/
  responses : List Packet
  deriving DecidableEq, Repr

/-- Why a step stops. Both need a flag that is 1 over an absent value, which no run reaches (R35:
"No command can read an unspecified value"); notes/assumptions/8. -/
inductive Fault where
  /-- The PE snapshot is read and holds no value. Raised by PE.GETPRIME, CS.NEWSEQ, CS.NEWSEND and
  CS.NEWRECV with their flag set and `prime = none`. safe: the machine stops, no value is made up. -/
  | snapshotAbsent
  /-- An AB table is read and holds no value. Raised by AB.NEWSEND, AB.NEWRECV and AB.COMBINE with
  `AB_KEYED` set and `PT` or `T` absent. safe: the machine stops, no value is made up. -/
  | tableAbsent
  deriving DecidableEq, Repr

/-- Why an instruction has no meaning. -/
inductive Refusal where
  /-- The arm of `exec` has no meaning yet. Raised by no arm of this model. safe. -/
  | notModelled (mnemonic : String)
  deriving DecidableEq, Repr

/-- Reset of a core built with `NONCE_BYTES = nb`: the table of R35. The PE holds what `initialize`
installs; the snapshot and the AB tables hold no value (notes/assumptions/8); the core is idle and
has no response pending (R230); nothing stands at the ports (notes/assumptions/1 to 3). -/
def State.resetCore (nb : NonceBytes) : State where
  pe := { i := 0, j := 0, k := 0, z := 0, a := 0, w := 1, S := Table.identity }
  prime := none
  seq := 0
  T := none
  PT := none
  aseq := 0
  roll := 0
  flags := 0x00
  err := 0x00
  nonceBytes := nb
  held := none
  commands := []
  rng := []
  responses := []

/-- The machine right after reset, for the core of `Config.nonceBytes` (notes/assumptions/5). -/
def State.reset : State := State.resetCore Config.nonceBytes

end Sys2Proof.Machine
end

