-- ==== Sys2Proof/Machine/Flags.lean ====
section
/-! DEFINITION. The status registers FLAGS, ERR and CONFIG (R30, R31, R32): their bits, what sets them, how they read. -/

namespace Sys2Proof.Machine

/-- `FLAGS.CS_KEYED`, bit 0 (R30). -/
def State.csKeyed (s : State) : Bool := s.flags.getLsbD 0

/-- `FLAGS.AB_KEYED`, bit 1 (R30). -/
def State.abKeyed (s : State) : Bool := s.flags.getLsbD 1

/-- `FLAGS.PRIME_VALID`, bit 2 (R30). -/
def State.primeValid (s : State) : Bool := s.flags.getLsbD 2

/-- `FLAGS.CS_KEYED <- 1` (R151). -/
def setCsKeyed (s : State) : State := { s with flags := s.flags ||| 0x01 }

/-- `FLAGS.AB_KEYED <- 1` (R174). -/
def setAbKeyed (s : State) : State := { s with flags := s.flags ||| 0x02 }

/-- `FLAGS.PRIME_VALID <- 1` (R130, R151). -/
def setPrimeValid (s : State) : State := { s with flags := s.flags ||| 0x04 }

/-- The bit of `ERR` an error sets: bit `c - 1` for code `c` (R31). -/
def errBit (e : Error) : Byte := 1 <<< (e.code.toNat - 1)

/-- `ERR[c-1] <- 1` (R204); no other bit changes. -/
def logError (e : Error) (s : State) : State := { s with err := s.err ||| errBit e }

/-- `CONFIG` (R32): `CONFIG[1:0] = NONCE_BYTES`, `CONFIG[7:2] = 0`. -/
def State.config (s : State) : Byte := BitVec.ofNat 8 s.nonceBytes.count

end Sys2Proof.Machine
end

