-- ==== Sys2Proof/Machine/Operands.lean ====
section
/-! DEFINITION. Operand forms and counter arithmetic: nibbles (R10), the clamped output length (R83, R132), key lengths (R7), the counters and their bytes (R13 (e), R54, R84), and the combine functions (R155, R156, R173). -/

namespace Sys2Proof.Machine

/-- The low nibble of a byte, `b[3:0]` (R10). -/
def lowNibble (b : Byte) : BitVec 4 := b.extractLsb' 0 4

/-- The high nibble of a byte, `b[7:4]` (R10). -/
def highNibble (b : Byte) : BitVec 4 := b.extractLsb' 4 4

/-- "position `128 + nibble`" (R52 (b)). -/
def absorbTarget (x : BitVec 4) : Byte := 128 + x.setWidth 8

/-- `r = min(OUTLEN, 255)` (R83, R132). -/
def clampOutLen (outLen : BitVec 16) : Nat := min outLen.toNat 255

/-- `CS_KEY_BYTES` (R7). -/
def csKeyBytes : Nat := 16

/-- `AB_KEY_BYTES` (R7). -/
def abKeyBytes : Nat := 7

/-- `AB_BURN` (R7). -/
@[irreducible] def abBurn : Nat := 1536

/-- A value written to `SEQ`: reduced to the register's `SEQ_BITS` (R11). -/
def truncSeq (nb : NonceBytes) (v : BitVec 24) : BitVec 24 := BitVec.ofNat 24 (v.toNat % nb.seqMod)

/-- `(SEQ + 1) mod SEQ_MOD` (R153). -/
def seqSucc (nb : NonceBytes) (v : BitVec 24) : BitVec 24 :=
  BitVec.ofNat 24 ((v.toNat + 1) % nb.seqMod)

/-- The nonce, `bytes_be(SEQ, NONCE_BYTES)` (R54, R150). -/
def State.nonce (s : State) : List Byte := seqBytes s.nonceBytes s.seq

/-- `ASEQ[15:8]`, `ASEQ[7:0]`, `ROLL` (R84). -/
def State.abCounters (s : State) : List Byte := bytesBe16 s.aseq ++ [s.roll]

/-- `ASEQ <- (ASEQ + 1) mod 65536; if ASEQ == 0: ROLL <- (ROLL + 1) mod 256` (R176). -/
def bumpAbCounters (s : State) : State :=
  { s with aseq := s.aseq + 1, roll := if s.aseq + 1 = 0 then s.roll + 1 else s.roll }

/-- `(src[n] + ks) mod 256` (R155). -/
def addCombine (src ks : Byte) : Byte := src + ks

/-- `(src[n] - ks) mod 256` (R156). -/
def subCombine (src ks : Byte) : Byte := src - ks

/-- `ks xor src[n]` (R173). -/
def xorCombine (src ks : Byte) : Byte := ks ^^^ src

end Sys2Proof.Machine
end

