-- ==== Sys2Proof/Machine/Ops.lean ====
section
/-! DEFINITION. The named operations over tables and ports: table access and swap (R11, R59), taking a command (R68), answering it (R61), raising an error (R204), the RNG port and its hold (R62, R212). -/

namespace Sys2Proof

/-- `M[x]` (R11). -/
def Table.read (t : Table) (x : Byte) : Byte := t[x.toNat]'x.isLt

/-- `M[x] <- v` (R11). -/
def Table.write (t : Table) (x v : Byte) : Table := Vector.set t x.toNat v x.isLt

/-- `swap(M[x], M[y])`: `t = M[x]; M[x] <- M[y]; M[y] <- t` (R11, R59). -/
def Table.swap (t : Table) (x y : Byte) : Table := (t.write x (t.read y)).write y (t.read x)

namespace Machine

/-- The core, idle, takes the next packet of the command port (R60, R68); `none` when no packet
has been presented. -/
def takeCommand (s : State) : Option (Packet × State) :=
  match s.commands with
  | [] => none
  | p :: rest => some (p, { s with commands := rest })

/-- The core answers with one response packet and is idle (R61, R68). -/
def answer (p : Packet) (s : State) : State :=
  { s with responses := s.responses ++ [p], held := none }

/-- Success: status `0x00`, then the data (R61, R84). -/
def respond (data : List Byte) (s : State) : State := answer ⟨0x00, data⟩ s

/-- `raise <Error>` (R204): the command stops, `ERR[c-1] <- 1`, the response packet is the single
byte `c`, the core becomes idle, and nothing else changes. Every error of every command is taken
here. There is no return from it: "nothing was entered" (R209). -/
def raise (e : Error) (s : State) : State := answer ⟨e.code, []⟩ (logError e s)

/-- `rng(n)` (R11, R62): the next `n` bytes of the RNG port and the state without them; `none`
while the port has fewer bytes than that. -/
def takeRng (n : Nat) (s : State) : Option (List Byte × State) :=
  if n ≤ s.rng.length then some (s.rng.take n, { s with rng := s.rng.drop n }) else none

/-- The hold (R212): "the core stays busy, changes nothing, and resumes when the bytes arrive". -/
def hold (h : Held) (s : State) : State := { s with held := some h }

/-- The command a held core resumes (R212). -/
def Held.instr : Held → Instr
  | .csNewSeq => .csNewSeq
  | .abNewSeq => .abNewSeq

end Machine

end Sys2Proof
end

