-- ==== Sys2Proof/Machine/Backend.lean ====
section
/-! DEFINITION. The micro-operations of the Alternate Backend (R170 to R173) over its table and running indices. -/

namespace Sys2Proof.Machine

/-- The table and the running indices during one pass (R29, R171). The indices are temporaries of
the pass and are not in `State`. -/
structure Pass where
  ai : Byte
  aj : Byte
  T : Table
  deriving DecidableEq, Repr

/-- One turn of the key-schedule loop at position `v` (R170): `kj <- kj + T[v] + key[v mod 7]`,
then `swap(T[v], T[kj])`. The caller has checked that `key` has 7 bytes; a byte beyond a shorter
key reads 0 and is never reached (notes/assumptions/15). -/
def abKeyTurn (key : List Byte) (r : Byte × Table) (v : Nat) : Byte × Table :=
  let kj := r.1 + r.2.read (BitVec.ofNat 8 v) + key.getD (v % 7) 0
  (kj, r.2.swap (BitVec.ofNat 8 v) kj)

/-- `N`, the turns of the key schedule (R7, R170). -/
@[irreducible] def keyTurns : Nat := 256

/-- `abKeySchedule(key)` (R170): from the identity, `v` running over 0..255. -/
def abKeySchedule (key : List Byte) : Table :=
  ((List.range keyTurns).foldl (abKeyTurn key) (0, Table.identity)).2

/-- `abStep` (R171): the keystream byte, read after the swap, and the pass after it. -/
def abStep (p : Pass) : Byte × Pass :=
  let ai := p.ai + 1
  let aj := p.aj + p.T.read ai
  let T := p.T.swap ai aj
  (T.read (T.read ai + T.read aj), { ai := ai, aj := aj, T := T })

/-- The loop of `abPass` (R173): one step per byte, XORed with it. -/
def abLoop : List Byte → Pass → List Byte × Pass
  | [], p => ([], p)
  | b :: src, p =>
    let d := abStep p
    let r := abLoop src d.2
    (xorCombine b d.1 :: r.1, r.2)

/-- `abPass(src)` (R173) with its running indices seeded to `seed`: the result bytes and the table,
which keeps the swaps. -/
def abPass (seed : Byte × Byte) (src : List Byte) (T : Table) : List Byte × Table :=
  let r := abLoop src { ai := seed.1, aj := seed.2, T := T }
  (r.1, r.2.T)

/-- `abSeed` (R172): the running indices from the counters, by the open function `AB_SEED`. -/
def State.abSeed (s : State) : Byte × Byte := Config.abSeed s.aseq s.roll

/-- The table a successful `AB.SETKEY` leaves in `T` and `PT` (R174): the key schedule, then one
pass over 1536 bytes of any value, its output discarded. -/
def abKeyedTable (seed : Byte × Byte) (key : List Byte) : Table :=
  (abPass seed (List.replicate abBurn 0) (abKeySchedule key)).2

end Sys2Proof.Machine
end

