-- ==== Sys2Proof/Machine/Ab.lean ====
section
/-! DEFINITION. The meanings of the six AB commands (R174 to R179). -/

namespace Sys2Proof.Machine

/-- `AB.SETKEY <key>` (R174): the burn-in is seeded from `ASEQ` and `ROLL` as they stand. -/
def execAbSetKey (key : List Byte) (s : State) : Host.Outcome State Fault Refusal :=
  if key.length ≠ abKeyBytes then .next (raise .invalidKeyLength s)
  else
    let T := abKeyedTable s.abSeed key
    .next (respond [] (setAbKeyed { s with T := some T, PT := some T }))

/-- `AB.NEWSEQ` (R175): holds while the RNG port has fewer than 3 bytes (R212). -/
def execAbNewSeq (s : State) : Host.Outcome State Fault Refusal :=
  if s.abKeyed = false then .next (raise .notKeyed s)
  else
    match takeRng 3 s with
    | none => .next (hold .abNewSeq s)
    | some (bytes, t) =>
      .next (respond []
        { t with aseq := be16 (bytes.getD 0 0) (bytes.getD 1 0), roll := bytes.getD 2 0 })

/-- `AB.NEWSEND` (R176). -/
def execAbNewSend (s : State) : Host.Outcome State Fault Refusal :=
  if s.abKeyed = false then .next (raise .notKeyed s)
  else
    match s.PT with
    | none => .fault .tableAbsent
    | some PT =>
      let t := bumpAbCounters { s with T := some PT }
      .next (respond t.abCounters t)

/-- `AB.NEWRECV #seq, #roll` (R177). -/
def execAbNewRecv (aseq : BitVec 16) (roll : Byte) (s : State) :
    Host.Outcome State Fault Refusal :=
  if s.abKeyed = false then .next (raise .notKeyed s)
  else
    match s.PT with
    | none => .fault .tableAbsent
    | some PT => .next (respond [] { s with T := some PT, aseq := aseq, roll := roll })

/-- `AB.COMBINE <src>` (R178): both directions. -/
def execAbCombine (src : List Byte) (s : State) : Host.Outcome State Fault Refusal :=
  if s.abKeyed = false then .next (raise .notKeyed s)
  else
    match s.T with
    | none => .fault .tableAbsent
    | some T =>
      let r := abPass s.abSeed src T
      .next (respond r.1 { s with T := some r.2 })

/-- `AB.RDSEQ` (R179): no flag is read. -/
def execAbRdSeq (s : State) : Host.Outcome State Fault Refusal :=
  .next (respond s.abCounters s)

end Sys2Proof.Machine
end

