-- ==== Sys2Proof/Machine/Engine.lean ====
section
/-! DEFINITION. The micro-operations of the Permutation Engine (R110 to R123) over the engine's registers and table. -/

namespace Sys2Proof.Machine

/-- What `initialize` installs (R110). -/
def Engine.initialized : Engine :=
  { i := 0, j := 0, k := 0, z := 0, a := 0, w := 1, S := Table.identity }

/-- `update` (R111): four lines, each using the values the lines before it wrote. -/
def Engine.update (e : Engine) : Engine :=
  let i := e.i + e.w
  let j := e.k + e.S.read (e.j + e.S.read i)
  let k := i + e.k + e.S.read j
  { e with i := i, j := j, k := k, S := e.S.swap i j }

/-- `output` (R112): the next `z`, which is also the byte returned. -/
def Engine.output (e : Engine) : Byte :=
  let t1 := e.z + e.k
  let t2 := e.i + e.S.read t1
  let t3 := e.j + e.S.read t2
  e.S.read t3

/-- `n` updates in a row (R113). -/
def Engine.updates : Nat → Engine → Engine
  | 0, e => e
  | n + 1, e => Engine.updates n e.update

/-- `WHIP_STEPS` (R7). -/
@[irreducible] def whipSteps : Nat := 512

/-- `whip` (R113): 512 updates, then `w <- w + 2`, once. -/
def Engine.whip (e : Engine) : Engine :=
  let e := Engine.updates whipSteps e
  { e with w := e.w + 2 }

/-- One pair of `crush` (R114): swap when `S[p] > S[255 - p]`, unsigned. -/
def crushPair (t : Table) (p : Byte) : Table :=
  if t.read (255 - p) < t.read p then t.swap p (255 - p) else t

/-- `HALF`, the number of `crush` pairs (R7). -/
@[irreducible] def crushPairs : Nat := 128

/-- The pass of `crush` over a table (R114): the pairs `(p, 255 - p)` for `p` in 0..127. -/
def crushTable (t : Table) : Table :=
  (List.range crushPairs).foldl (fun t p => crushPair t (BitVec.ofNat 8 p)) t

/-- `crush` (R114): registers are not changed. -/
def Engine.crush (e : Engine) : Engine := { e with S := crushTable e.S }

/-- `shuffle` (R115): whip, crush, whip, crush, whip, then `a <- 0`. -/
def Engine.shuffle (e : Engine) : Engine :=
  { e.whip.crush.whip.crush.whip with a := 0 }

/-- `if a == 128: shuffle()` (R116, R119). -/
def Engine.shuffleIfFull (e : Engine) : Engine := if e.a = 128 then e.shuffle else e

/-- `if a > 0: shuffle()` (R120, R121). -/
def Engine.shuffleIfAbsorbed (e : Engine) : Engine := if 0 < e.a then e.shuffle else e

/-- `absorbNibble(x)` (R116). -/
def Engine.absorbNibble (x : BitVec 4) (e : Engine) : Engine :=
  let e := e.shuffleIfFull
  { e with S := e.S.swap e.a (absorbTarget x), a := e.a + 1 }

/-- `absorbByte(b)` (R117): the low nibble first (R55). -/
def Engine.absorbByte (b : Byte) (e : Engine) : Engine :=
  (e.absorbNibble (lowNibble b)).absorbNibble (highNibble b)

/-- `absorb(bytes)` (R118): in order. -/
def Engine.absorb (bytes : List Byte) (e : Engine) : Engine :=
  bytes.foldl (fun e b => e.absorbByte b) e

/-- `absorbStop` (R119). -/
def Engine.absorbStop (e : Engine) : Engine :=
  let e := e.shuffleIfFull
  { e with a := e.a + 1 }

/-- `drip` (R120): the byte returned and the engine after it. -/
def Engine.drip (e : Engine) : Byte × Engine :=
  let e := e.shuffleIfAbsorbed.update
  (e.output, { e with z := e.output })

/-- `n` drips in a row, bytes in the order produced (R121). -/
def Engine.drips : Nat → Engine → List Byte × Engine
  | 0, e => ([], e)
  | n + 1, e =>
    let d := e.drip
    let r := Engine.drips n d.2
    (d.1 :: r.1, r.2)

/-- `squeeze(n)` (R121): shuffle first if `a > 0`, then `n` drips. -/
def Engine.squeeze (n : Nat) (e : Engine) : List Byte × Engine :=
  Engine.drips n e.shuffleIfAbsorbed

/-- One `drip` per data byte, in order, combined with it by `f` (R155, R156). -/
def Engine.cipher (f : Byte → Byte → Byte) : List Byte → Engine → List Byte × Engine
  | [], e => ([], e)
  | b :: src, e =>
    let d := e.drip
    let r := Engine.cipher f src d.2
    (f b d.1 :: r.1, r.2)

/-- The sequence shared by `PE.HASH` and `PE.MAC` after their fields are absorbed: `absorb([r])`,
then `squeeze(r)` (R132, R133). -/
def Engine.finish (r : Nat) (e : Engine) : List Byte × Engine :=
  (e.absorb [BitVec.ofNat 8 r]).squeeze r

/-- The body of `PE.HASH` (R132), from a fresh engine. -/
def hashEngine (r : Nat) (message : List Byte) : List Byte × Engine :=
  ((Engine.initialized.absorb message).absorbStop).finish r

/-- The body of `PE.MAC` (R133), from a fresh engine. -/
def macEngine (r : Nat) (key message : List Byte) : List Byte × Engine :=
  ((((Engine.initialized.absorb key).absorbStop).absorb message).absorbStop).finish r

/-- The keyed engine of `CS.SETKEY` (R151): `initialize`, `absorb(key)`, `absorbStop`. -/
def keyedEngine (key : List Byte) : Engine := (Engine.initialized.absorb key).absorbStop

/-- `setPrime` (R122): the live state is captured whole. -/
def setPrime (s : State) : State := { s with prime := some s.pe }

/-- `getPrime` (R123): the snapshot is restored whole and kept; `none` when it holds no value. -/
def getPrime (s : State) : Option State :=
  match s.prime with
  | none => none
  | some e => some { s with pe := e }

/-- `noncePrime` (R150): `getPrime`, then absorb the nonce. -/
def noncePrime (s : State) : Option State :=
  match getPrime s with
  | none => none
  | some t => some { t with pe := t.pe.absorb s.nonce }

end Sys2Proof.Machine
end

