-- ==== Sys2Proof/Machine/Cs.lean ====
section
/-! DEFINITION. The meanings of the seven CS commands (R151 to R157). -/

namespace Sys2Proof.Machine

/-- `CS.SETKEY <key>` (R151): the length is checked "before any state is derived from it". -/
def execCsSetKey (key : List Byte) (s : State) : Host.Outcome State Fault Refusal :=
  if key.length ≠ csKeyBytes then .next (raise .invalidKeyLength s)
  else
    .next (respond [] (setPrimeValid (setCsKeyed (setPrime { s with pe := keyedEngine key }))))

/-- `CS.NEWSEQ` (R152): holds while the RNG port has fewer than `NONCE_BYTES` bytes (R212). -/
def execCsNewSeq (s : State) : Host.Outcome State Fault Refusal :=
  if s.csKeyed = false then .next (raise .notKeyed s)
  else
    match takeRng s.nonceBytes.count s with
    | none => .next (hold .csNewSeq s)
    | some (bytes, t) =>
      match noncePrime { t with seq := (seqOfBytes s.nonceBytes bytes).getD 0 } with
      | none => .fault .snapshotAbsent
      | some u => .next (respond [] u)

/-- `CS.NEWSEND` (R153). -/
def execCsNewSend (s : State) : Host.Outcome State Fault Refusal :=
  if s.csKeyed = false then .next (raise .notKeyed s)
  else
    match noncePrime { s with seq := seqSucc s.nonceBytes s.seq } with
    | none => .fault .snapshotAbsent
    | some t => .next (respond t.nonce t)

/-- `CS.NEWRECV #seq` (R154). -/
def execCsNewRecv (seq : BitVec 24) (s : State) : Host.Outcome State Fault Refusal :=
  if s.csKeyed = false then .next (raise .notKeyed s)
  else
    match noncePrime { s with seq := truncSeq s.nonceBytes seq } with
    | none => .fault .snapshotAbsent
    | some t => .next (respond [] t)

/-- `CS.ENCRYPT <src>` (R155): `dest[n] = (src[n] + drip()) mod 256`. -/
def execCsEncrypt (src : List Byte) (s : State) : Host.Outcome State Fault Refusal :=
  if s.csKeyed = false then .next (raise .notKeyed s)
  else
    let r := s.pe.cipher addCombine src
    .next (respond r.1 { s with pe := r.2 })

/-- `CS.DECRYPT <src>` (R156): `dest[n] = (src[n] - drip()) mod 256`. -/
def execCsDecrypt (src : List Byte) (s : State) : Host.Outcome State Fault Refusal :=
  if s.csKeyed = false then .next (raise .notKeyed s)
  else
    let r := s.pe.cipher subCombine src
    .next (respond r.1 { s with pe := r.2 })

/-- `CS.RDSEQ` (R157): no flag is read. -/
def execCsRdSeq (s : State) : Host.Outcome State Fault Refusal :=
  .next (respond s.nonce s)

end Sys2Proof.Machine
end

