-- ==== Sys2Proof/Machine/Pe.lean ====
section
/-! DEFINITION. The meanings of the ten PE commands (R124 to R133). -/

namespace Sys2Proof.Machine

/-- `PE.INIT` (R124). -/
def execPeInit (s : State) : Host.Outcome State Fault Refusal :=
  .next (respond [] { s with pe := Engine.initialized })

/-- `PE.ABSORB <bytes>` (R125). -/
def execPeAbsorb (payload : List Byte) (s : State) : Host.Outcome State Fault Refusal :=
  .next (respond [] { s with pe := s.pe.absorb payload })

/-- `PE.ABSORBSTOP` (R126). -/
def execPeAbsorbStop (s : State) : Host.Outcome State Fault Refusal :=
  .next (respond [] { s with pe := s.pe.absorbStop })

/-- `PE.SHUFFLE` (R127). -/
def execPeShuffle (s : State) : Host.Outcome State Fault Refusal :=
  .next (respond [] { s with pe := s.pe.shuffle })

/-- `PE.DRIP` (R128). -/
def execPeDrip (s : State) : Host.Outcome State Fault Refusal :=
  let d := s.pe.drip
  .next (respond [d.1] { s with pe := d.2 })

/-- `PE.SQUEEZE #n` (R129). -/
def execPeSqueeze (cnt : BitVec 16) (s : State) : Host.Outcome State Fault Refusal :=
  let r := s.pe.squeeze cnt.toNat
  .next (respond r.1 { s with pe := r.2 })

/-- `PE.SETPRIME` (R130). -/
def execPeSetPrime (s : State) : Host.Outcome State Fault Refusal :=
  .next (respond [] (setPrimeValid (setPrime s)))

/-- `PE.GETPRIME` (R131). -/
def execPeGetPrime (s : State) : Host.Outcome State Fault Refusal :=
  if s.primeValid = false then .next (raise .primeInvalid s)
  else
    match getPrime s with
    | none => .fault .snapshotAbsent
    | some t => .next (respond [] t)

/-- `PE.HASH #outlen, <message>` (R132). -/
def execPeHash (outLen : BitVec 16) (message : List Byte) (s : State) :
    Host.Outcome State Fault Refusal :=
  let r := hashEngine (clampOutLen outLen) message
  .next (respond r.1 { s with pe := r.2 })

/-- `PE.MAC #outlen, <key>, <message>` (R133). -/
def execPeMac (outLen : BitVec 16) (key message : List Byte) (s : State) :
    Host.Outcome State Fault Refusal :=
  let r := macEngine (clampOutLen outLen) key message
  .next (respond r.1 { s with pe := r.2 })

end Sys2Proof.Machine
end

