-- ==== Sys2Proof/Machine/Sys.lean ====
section
/-! DEFINITION. The meaning of the system command (R190). -/

namespace Sys2Proof.Machine

/-- `SYS.RDSTAT` (R190): `FLAGS`, `ERR`, `CONFIG`; no state changes. -/
def execSysRdStat (s : State) : Host.Outcome State Fault Refusal :=
  .next (respond [s.flags, s.err, s.config] s)

end Sys2Proof.Machine
end

