-- ==== Sys2Proof/Machine/Dispatch.lean ====
section
/-! DEFINITION. One arm per command (R86): the rule of each command is its meaning's. -/

namespace Sys2Proof.Machine

/-- Executes one decoded command. -/
def exec (i : Instr) (s : State) : Host.Outcome State Fault Refusal :=
  match i with
  | .peInit => Sys2Proof.Machine.execPeInit s
  | .peAbsorb payload => Sys2Proof.Machine.execPeAbsorb payload s
  | .peAbsorbStop => Sys2Proof.Machine.execPeAbsorbStop s
  | .peShuffle => Sys2Proof.Machine.execPeShuffle s
  | .peDrip => Sys2Proof.Machine.execPeDrip s
  | .peSqueeze cnt => Sys2Proof.Machine.execPeSqueeze cnt s
  | .peSetPrime => Sys2Proof.Machine.execPeSetPrime s
  | .peGetPrime => Sys2Proof.Machine.execPeGetPrime s
  | .peHash outLen message => Sys2Proof.Machine.execPeHash outLen message s
  | .peMac outLen key message => Sys2Proof.Machine.execPeMac outLen key message s
  | .csSetKey key => Sys2Proof.Machine.execCsSetKey key s
  | .csNewSeq => Sys2Proof.Machine.execCsNewSeq s
  | .csNewSend => Sys2Proof.Machine.execCsNewSend s
  | .csNewRecv seq => Sys2Proof.Machine.execCsNewRecv seq s
  | .csEncrypt src => Sys2Proof.Machine.execCsEncrypt src s
  | .csDecrypt src => Sys2Proof.Machine.execCsDecrypt src s
  | .csRdSeq => Sys2Proof.Machine.execCsRdSeq s
  | .abSetKey key => Sys2Proof.Machine.execAbSetKey key s
  | .abNewSeq => Sys2Proof.Machine.execAbNewSeq s
  | .abNewSend => Sys2Proof.Machine.execAbNewSend s
  | .abNewRecv aseq roll => Sys2Proof.Machine.execAbNewRecv aseq roll s
  | .abCombine src => Sys2Proof.Machine.execAbCombine src s
  | .abRdSeq => Sys2Proof.Machine.execAbRdSeq s
  | .sysRdStat => Sys2Proof.Machine.execSysRdStat s

end Sys2Proof.Machine
end

