-- ==== Sys2Proof/Machine/Step.lean ====
section
/-! DEFINITION. One step of the core: a held command resumes, or the idle core takes the next packet, decodes it and executes it (R68, R86, R212). -/

namespace Sys2Proof.Machine

/-- One step. A held command is tried again (R212). An idle core with a packet at its port takes
it, decodes it and runs it, or raises what the decoder found (R86, R208). An idle core with no
packet "keeps all its state indefinitely" (R220). -/
def step (s : State) : Host.Outcome State Fault Refusal :=
  match s.held with
  | some h => exec h.instr s
  | none =>
    match takeCommand s with
    | none => .next s
    | some (p, t) =>
      match decode t.nonceBytes p with
      | .ok i => exec i t
      | .error e => .next (raise e t)

/-- `s`, idle, with the packet of `wordPacket` as the next one at its command port: the host
presents it (R60, R72; notes/assumptions/1). -/
def State.withFetchWord (s : State) (nbits w : Nat) : State :=
  { s with held := none, commands := wordPacket s.nonceBytes nbits w :: s.commands }

end Sys2Proof.Machine
end

