-- ==== Sys2Proof/Machine/Environment.lean ====
section
/-! DEFINITION. What the outside does to the core between steps (R72): present a packet (R60), supply RNG bytes (R62), assert reset (R63, R230, R231). -/

namespace Sys2Proof.Machine

/-- The host presents a packet; it waits at the port while the core is busy (R60, R68). -/
def presentPacket (p : Packet) (s : State) : State := { s with commands := s.commands ++ [p] }

/-- The environment supplies bytes on the RNG port (R62, R212). -/
def supplyRng (bytes : List Byte) (s : State) : State := { s with rng := s.rng ++ bytes }

/-- The reset input (R63): every piece of state takes its reset value (R230); a running command is
abandoned without a response and a packet at the port is dropped (R231, notes/assumptions/11).
`NONCE_BYTES` is fixed at construction (R8). -/
def assertReset (s : State) : State := State.resetCore s.nonceBytes

end Sys2Proof.Machine
end

