-- ==== Sys2Proof/Safety.lean ====
section
/-! DEFINITION. What holds in every state of a run (R22, R24, R26, R27, R30, R31, R35), and a run of several commands. -/

namespace Sys2Proof

/-- A table "remain[s] a permutation of 0..255 (no duplicate or missing values)" (R24). -/
def Table.IsPerm (t : Table) : Prop := Function.Bijective t.read

namespace Machine

/-- The two register invariants of R22: `0 <= a <= 128` and `w` odd. -/
def Engine.InBounds (e : Engine) : Prop := e.a.toNat ≤ 128 ∧ e.w.toNat % 2 = 1

/-- `S`, `PS`, `T` and `PT` are permutations wherever they hold a value (R24, R25, R27). -/
structure State.TablesPermute (s : State) : Prop where
  live : s.pe.S.IsPerm
  snapshot : ∀ e, s.prime = some e → e.S.IsPerm
  abLive : ∀ t, s.T = some t → t.IsPerm
  abSnapshot : ∀ t, s.PT = some t → t.IsPerm

/-- R22 for the live registers and for the captured ones. -/
structure State.RegistersBounded (s : State) : Prop where
  live : s.pe.InBounds
  snapshot : ∀ e, s.prime = some e → e.InBounds

/-- A value is present exactly when its flag says so, and a keyed CS has a snapshot (R35, R150). -/
structure State.FlagsTell (s : State) : Prop where
  prime : s.primeValid = s.prime.isSome
  abLive : s.abKeyed = s.T.isSome
  abSnapshot : s.abKeyed = s.PT.isSome
  keyed : s.csKeyed = true → s.primeValid = true

/-- The reserved bits read 0: `FLAGS[7:3]` (R30) and `ERR[7:5]` (R31). -/
structure State.ReservedZero (s : State) : Prop where
  flags : s.flags.toNat < 8
  err : s.err.toNat < 32

/-- `SEQ` is one of the "value[s] 0..`SEQ_MOD - 1`" (R26). -/
def State.SeqInRange (s : State) : Prop := s.seq.toNat < s.nonceBytes.seqMod

/-- The invariant of every run. -/
structure State.Inv (s : State) : Prop where
  tables : s.TablesPermute
  registers : s.RegistersBounded
  flagsTell : s.FlagsTell
  reserved : s.ReservedZero
  seqInRange : s.SeqInRange

/-- `be(b0, b1, ..)` (R11): "the number whose big-endian bytes are" the list. -/
def beNat (bytes : List Byte) : Nat := bytes.foldl (fun n b => 256 * n + b.toNat) 0

/-- The 232 opcode values R87 lists as illegal. -/
def illegalOpcode (op : Nat) : Prop :=
  op = 0x00 ∨ (0x0B ≤ op ∧ op ≤ 0x1F) ∨ (0x27 ≤ op ∧ op ≤ 0x3F) ∨ op = 0x45 ∨
    (0x47 ≤ op ∧ op ≤ 0xEF) ∨ (0xF1 ≤ op ∧ op ≤ 0xFF)

/-- A legal opcode with a length that is not legal for its format (R81, R82), read from `cmd[0]`,
the length `L` and, for format M, the `KLEN` field (R205). -/
def malformedLength (nb : NonceBytes) (p : Packet) : Prop :=
  let op := p.first.toNat
  let L := p.rest.length + 1
  (op ∈ [0x01, 0x03, 0x04, 0x05, 0x07, 0x08, 0x21, 0x22, 0x26, 0x41, 0x42, 0x46, 0xF0] ∧ L ≠ 1) ∨
    (op = 0x06 ∧ L ≠ 3) ∨ (op = 0x09 ∧ L < 3) ∨
    (op = 0x0A ∧ (L < 5 ∨ L < 5 + beNat [p.rest.getD 2 0, p.rest.getD 3 0])) ∨
    (op = 0x23 ∧ L ≠ 1 + nb.count) ∨ (op = 0x43 ∧ L ≠ 4)

/-- How many data bytes follow the status of a successful command (R84). -/
def dataLength (nb : NonceBytes) : Instr → Nat
  | .peDrip => 1
  | .peSqueeze cnt => cnt.toNat
  | .peHash outLen _ => min outLen.toNat 255
  | .peMac outLen _ _ => min outLen.toNat 255
  | .csNewSend => nb.count
  | .csRdSeq => nb.count
  | .csEncrypt src => src.length
  | .csDecrypt src => src.length
  | .abCombine src => src.length
  | .abNewSend => 3
  | .abRdSeq => 3
  | .sysRdStat => 3
  | .peInit => 0
  | .peAbsorb _ => 0
  | .peAbsorbStop => 0
  | .peShuffle => 0
  | .peSetPrime => 0
  | .peGetPrime => 0
  | .csSetKey _ => 0
  | .csNewSeq => 0
  | .csNewRecv _ => 0
  | .abSetKey _ => 0
  | .abNewSeq => 0
  | .abNewRecv _ _ => 0

/-- The two commands that write the PE snapshot (R36). -/
def writesSnapshot (i : Instr) : Prop := i = .peSetPrime ∨ ∃ key, i = .csSetKey key

/-- The three commands that prime a CS packet (R150). -/
def primesPacket (i : Instr) : Prop := i = .csNewSeq ∨ i = .csNewSend ∨ ∃ n, i = .csNewRecv n

/-- The commands of the Alternate Backend: opcodes `0x4_` (R85). -/
def isAb (i : Instr) : Prop := i.opcode.toNat / 16 = 4

/-- The commands of the engine and of the Cipher Session: opcodes `0x0_` and `0x2_` (R85). -/
def isPeOrCs (i : Instr) : Prop := i.opcode.toNat / 16 = 0 ∨ i.opcode.toNat / 16 = 2

/-- The commands of a list one after the other, each from the state the one before it left; a
fault or a refusal ends it. -/
def execAll : List Instr → State → Host.Outcome State Fault Refusal
  | [], s => .next s
  | i :: is, s =>
    match exec i s with
    | .next t => execAll is t
    | .fault f => .fault f
    | .refused r => .refused r

end Machine

end Sys2Proof
end

