-- ==== Sys2Proof/Certificates/Slice0/Obligations.lean ====
section
/-! DEFINITION. The statements about the model, one `def Obligations.<Name> : Prop` each, listed in OBLIGATIONS.json. A conclusion of the form `exec i s = .next { s with .. }` is the command's result, its frame and its completion at once: every field not named there is unchanged. -/

open Sys2Proof Sys2Proof.Machine

/-! ### Encoding (30_encoding.md) -/

/-- Decoding an encoded command gives it back, with every operand at every value its field admits
(R81, R83, R86). -/
def Obligations.DecodeOfEncode : Prop :=
  ∀ (nb : NonceBytes) (i : Instr), i.wellFormed nb = true → decode nb (encode nb i) = .ok i

/-- A packet the decoder accepts is the encoding of what it reads, which is well formed: no two
packets mean one command, no byte of a packet is ignored (R81, R86). -/
def Obligations.EncodeOfDecode : Prop :=
  ∀ (nb : NonceBytes) (p : Packet) (i : Instr), decode nb p = .ok i →
    encode nb i = p ∧ i.wellFormed nb = true

/-- Packets that the spec writes out decode to the commands it says they are: R129, V32, V42, V50,
V61, V64 and V70, in that order. -/
def Obligations.SpecPacketsDecode : Prop :=
  decode .two ⟨0x06, [0x00, 0x08]⟩ = .ok (.peSqueeze 8) ∧
  decode .two ⟨0x0A, [0x00, 0x08, 0x00, 0x03, 0x6b, 0x65, 0x79, 0x41, 0x42, 0x43]⟩ =
    .ok (.peMac 8 [0x6b, 0x65, 0x79] [0x41, 0x42, 0x43]) ∧
  decode .two ⟨0x23, [0x12, 0x34]⟩ = .ok (.csNewRecv 0x1234) ∧
  decode .three ⟨0x23, [0x12, 0x34, 0x56]⟩ = .ok (.csNewRecv 0x123456) ∧
  decode .two ⟨0x43, [0x12, 0x34, 0x05]⟩ = .ok (.abNewRecv 0x1234 0x05) ∧
  decode .two ⟨0x44, [0x48, 0x65, 0x6c, 0x6c, 0x6f]⟩ =
    .ok (.abCombine [0x48, 0x65, 0x6c, 0x6c, 0x6f]) ∧
  decode .two ⟨0xF0, []⟩ = .ok .sysRdStat

/-- The decoder finds an illegal opcode exactly on the 232 values, whatever the length; the core
then sets `ERR` bit 2, answers `03`, consumes the packet whole and changes nothing else (R87). -/
def Obligations.IllegalOpcodesRaise : Prop :=
  (∀ (nb : NonceBytes) (p : Packet),
    decode nb p = .error .illegalCommand ↔ illegalOpcode p.first.toNat) ∧
  ∀ (s : State) (p : Packet) (rest : List Packet), s.held = none → s.commands = p :: rest →
    illegalOpcode p.first.toNat →
    step s = .next { s with
      commands := rest, err := s.err ||| 0x04, responses := s.responses ++ [⟨0x03, []⟩] }

/-- The decoder finds a malformed packet exactly when a legal opcode has a length its format does
not allow; the core then sets `ERR` bit 3, answers `04`, consumes the packet whole and changes
nothing else (R205). -/
def Obligations.MalformedPacketsRaise : Prop :=
  (∀ (nb : NonceBytes) (p : Packet),
    decode nb p = .error .malformedCommand ↔ malformedLength nb p) ∧
  ∀ (s : State) (p : Packet) (rest : List Packet), s.held = none → s.commands = p :: rest →
    malformedLength s.nonceBytes p →
    step s = .next { s with
      commands := rest, err := s.err ||| 0x08, responses := s.responses ++ [⟨0x04, []⟩] }

/-! ### The step (20_memory.md, 60_exceptions.md) -/

/-- An idle core whose next packet decodes to a command runs that command, with the packet taken
from the port (R67, R68, R86). -/
def Obligations.StepRunsDecoded : Prop :=
  ∀ (s : State) (p : Packet) (rest : List Packet) (i : Instr), s.held = none →
    s.commands = p :: rest → decode s.nonceBytes p = .ok i →
    step s = exec i { s with commands := rest }

/-- An idle core with no packet keeps all its state (R220), and a busy core tries its held command
again (R212). That a step of an idle core is no change is the model's form
(notes/assumptions/1); so is the resumption as a new try of the whole command at every step, its
flag checked again (notes/assumptions/4, DEDUCED: R212 says only that the command resumes). -/
def Obligations.StepIdleOrHeld : Prop :=
  (∀ s : State, s.held = none → s.commands = [] → step s = .next s) ∧
  ∀ (s : State) (h : Held), s.held = some h → step s = exec h.instr s

/-- A command that can complete is answered by exactly one response packet and leaves the core
idle; the only other way on is the hold of a `NEWSEQ`, which changes nothing else (R61, R68,
R212). That the hold is a field of the state is the model's form (notes/assumptions/4), and that no
RNG byte leaves the port of a held core is its choice (notes/assumptions/3, DESIGN CHOICE). -/
def Obligations.OneResponsePerCommand : Prop :=
  ∀ (i : Instr) (s t : State), exec i s = .next t →
    (t.held = none ∧ ∃ p : Packet, t.responses = s.responses ++ [p] ∧
      (p.first = 0 ∨ ∃ e : Error, p = ⟨e.code, []⟩)) ∨
    ∃ h : Held, i = h.instr ∧ t = { s with held := some h }

/-- A successful response holds as many data bytes as R84 says. -/
def Obligations.ResponseDataLengths : Prop :=
  ∀ (i : Instr) (s t : State) (d : List Byte), exec i s = .next t →
    t.responses = s.responses ++ [⟨0x00, d⟩] → d.length = dataLength s.nonceBytes i

/-! ### Errors (60_exceptions.md) -/

/-- A step that answers with an error status changes one bit of `ERR`, answers the one byte `c`,
and is idle; no register, table, counter, flag or RNG byte is touched (R204). The command packet is
taken from the port. -/
def Obligations.ErrorsArePrecise : Prop :=
  ∀ (s t : State) (p : Packet), step s = .next t → t.responses = s.responses ++ [p] →
    p.first ≠ 0 →
    ∃ (e : Error) (left : List Packet), p = ⟨e.code, []⟩ ∧
      (left = s.commands ∨ ∃ c, s.commands = c :: left) ∧
      t = { s with
        commands := left
        err := s.err ||| (1 <<< (e.code.toNat - 1))
        responses := s.responses ++ [p]
        held := none }

/-- The session commands of R202 on an unkeyed session: `NotKeyed`, code 2, and nothing else. -/
def Obligations.UnkeyedSessionRaises : Prop :=
  (∀ (s : State) (i : Instr), s.flags.getLsbD 0 = false →
    (i = .csNewSeq ∨ i = .csNewSend ∨ (∃ n, i = .csNewRecv n) ∨ (∃ m, i = .csEncrypt m) ∨
      (∃ m, i = .csDecrypt m)) →
    exec i s = .next { s with
      err := s.err ||| 0x02, responses := s.responses ++ [⟨0x02, []⟩], held := none }) ∧
  ∀ (s : State) (i : Instr), s.flags.getLsbD 1 = false →
    (i = .abNewSeq ∨ i = .abNewSend ∨ (∃ n r, i = .abNewRecv n r) ∨ (∃ m, i = .abCombine m)) →
    exec i s = .next { s with
      err := s.err ||| 0x02, responses := s.responses ++ [⟨0x02, []⟩], held := none }

/-- A key of the wrong length commits nothing: `InvalidKeyLength`, code 1 (R201). -/
def Obligations.WrongKeyLengthRaises : Prop :=
  (∀ (s : State) (key : List Byte), key.length ≠ 16 →
    exec (.csSetKey key) s = .next { s with
      err := s.err ||| 0x01, responses := s.responses ++ [⟨0x01, []⟩], held := none }) ∧
  ∀ (s : State) (key : List Byte), key.length ≠ 7 →
    exec (.abSetKey key) s = .next { s with
      err := s.err ||| 0x01, responses := s.responses ++ [⟨0x01, []⟩], held := none }

/-- `PE.GETPRIME` with `PRIME_VALID == 0`: `PrimeInvalid`, code 5 (R206). -/
def Obligations.GetPrimeUncapturedRaises : Prop :=
  ∀ s : State, s.flags.getLsbD 2 = false →
    exec .peGetPrime s = .next { s with
      err := s.err ||| 0x10, responses := s.responses ++ [⟨0x05, []⟩], held := none }

/-- No step clears a bit of `ERR` or `FLAGS`; a success leaves `ERR`, a failure leaves `FLAGS`
(R30, R31). -/
def Obligations.StatusBitsAreSticky : Prop :=
  ∀ s t : State, step s = .next t →
    (∀ n, s.err.getLsbD n = true → t.err.getLsbD n = true) ∧
    (∀ n, s.flags.getLsbD n = true → t.flags.getLsbD n = true) ∧
    ∀ p : Packet, t.responses = s.responses ++ [p] →
      (p.first = 0 → t.err = s.err) ∧ (p.first ≠ 0 → t.flags = s.flags)

/-! ### Reset and invariants (10_state.md, 70_reset_and_hazards.md) -/

/-- What reset leaves (R230, R35), for either core, and that asserting reset gives it from every
state. `State.reset` is the 2-byte core by the model's choice (notes/assumptions/5), and the empty
ports are the model's form of them (notes/assumptions/1 to 3). -/
def Obligations.ResetValues : Prop :=
  (∀ nb : NonceBytes,
    (State.resetCore nb).pe.i = 0 ∧ (State.resetCore nb).pe.j = 0 ∧ (State.resetCore nb).pe.k = 0 ∧
    (State.resetCore nb).pe.z = 0 ∧ (State.resetCore nb).pe.a = 0 ∧ (State.resetCore nb).pe.w = 1 ∧
    (∀ x : Byte, (State.resetCore nb).pe.S.read x = x) ∧ (State.resetCore nb).prime = none ∧
    (State.resetCore nb).seq = 0 ∧ (State.resetCore nb).T = none ∧
    (State.resetCore nb).PT = none ∧ (State.resetCore nb).aseq = 0 ∧
    (State.resetCore nb).roll = 0 ∧ (State.resetCore nb).flags = 0 ∧
    (State.resetCore nb).err = 0 ∧
    (State.resetCore nb).config = BitVec.ofNat 8 nb.count ∧
    (State.resetCore nb).held = none ∧ (State.resetCore nb).responses = []) ∧
  (∀ s : State, assertReset s = State.resetCore s.nonceBytes) ∧
  State.reset = State.resetCore .two

/-- The invariant holds right after reset, on either core. -/
def Obligations.InvAtReset : Prop :=
  (∀ nb : NonceBytes, (State.resetCore nb).Inv) ∧ State.reset.Inv

/-- Every step keeps the invariant (R22, R24, R26, R27, R30, R31, R35). -/
def Obligations.StepKeepsInv : Prop :=
  ∀ s t : State, s.Inv → step s = .next t → t.Inv

/-- "No command can read an unspecified value" (R35): under the invariant no step stops. -/
def Obligations.InvNeverStops : Prop :=
  ∀ s : State, s.Inv → ∃ t, step s = .next t

/-- The tables stay permutations of 0..255 (R24, R27), with no other invariant assumed. -/
def Obligations.TablesStayPermutations : Prop :=
  ∀ s t : State, s.TablesPermute → step s = .next t → t.TablesPermute

/-- `0 <= a <= 128` and `w` odd, live and captured (R22), with no other invariant assumed. -/
def Obligations.RegistersStayBounded : Prop :=
  ∀ s t : State, s.RegistersBounded → step s = .next t → t.RegistersBounded

/-- `NONCE_BYTES` never changes (R8), and so neither does `CONFIG` (R32). -/
def Obligations.NonceBytesNeverChange : Prop :=
  ∀ s t : State, step s = .next t → t.nonceBytes = s.nonceBytes ∧ t.config = s.config

/-! ### Which command may write what (R36) -/

/-- The access table of R36, column by column: what changed names the commands that may have
changed it. -/
def Obligations.AccessTable : Prop :=
  ∀ (i : Instr) (s t : State), exec i s = .next t →
    (t.pe ≠ s.pe → (isPeOrCs i ∧ i ≠ .peSetPrime ∧ i ≠ .csRdSeq)) ∧
    (t.prime ≠ s.prime → writesSnapshot i) ∧
    (t.seq ≠ s.seq → i = .csNewSeq ∨ i = .csNewSend ∨ ∃ n, i = .csNewRecv n) ∧
    (t.T ≠ s.T → (∃ k, i = .abSetKey k) ∨ i = .abNewSend ∨ (∃ n r, i = .abNewRecv n r) ∨
      ∃ m, i = .abCombine m) ∧
    (t.PT ≠ s.PT → ∃ k, i = .abSetKey k) ∧
    (t.aseq ≠ s.aseq ∨ t.roll ≠ s.roll →
      i = .abNewSeq ∨ i = .abNewSend ∨ ∃ n r, i = .abNewRecv n r) ∧
    (t.flags ≠ s.flags → writesSnapshot i ∨ ∃ k, i = .abSetKey k) ∧
    (t.rng ≠ s.rng → i = .csNewSeq ∨ i = .abNewSeq) ∧
    t.commands = s.commands

/-- The AB commands are blind to the engine and the session: from two states that agree on the AB
state, its flag and the RNG port, they do and answer the same (R36, R182). -/
def Obligations.AbBlindToEngine : Prop :=
  ∀ (i : Instr) (s s' t : State), isAb i →
    s'.T = s.T → s'.PT = s.PT → s'.aseq = s.aseq → s'.roll = s.roll → s'.abKeyed = s.abKeyed →
    s'.rng = s.rng → exec i s = .next t →
    ∃ t', exec i s' = .next t' ∧ t'.T = t.T ∧ t'.PT = t.PT ∧ t'.aseq = t.aseq ∧ t'.roll = t.roll ∧
      t'.abKeyed = t.abKeyed ∧ t'.rng = t.rng ∧
      ∃ l, t.responses = s.responses ++ l ∧ t'.responses = s'.responses ++ l

/-- The PE and CS commands are blind to the Alternate Backend (R36, R135, R161). -/
def Obligations.EngineBlindToAb : Prop :=
  ∀ (i : Instr) (s s' t : State), isPeOrCs i →
    s'.pe = s.pe → s'.prime = s.prime → s'.seq = s.seq → s'.csKeyed = s.csKeyed →
    s'.primeValid = s.primeValid → s'.nonceBytes = s.nonceBytes → s'.rng = s.rng →
    exec i s = .next t →
    ∃ t', exec i s' = .next t' ∧ t'.pe = t.pe ∧ t'.prime = t.prime ∧ t'.seq = t.seq ∧
      t'.csKeyed = t.csKeyed ∧ t'.primeValid = t.primeValid ∧ t'.rng = t.rng ∧
      ∃ l, t.responses = s.responses ++ l ∧ t'.responses = s'.responses ++ l

/-! ### The engine's micro-operations (40_permutation_engine.md, part 1) -/

/-- `update` (R111): the four lines, the swap said entry by entry; `z`, `a`, `w` unchanged.
The formulas are the spec's decision D1 (notes/assumptions/10). -/
def Obligations.UpdateFormulas : Prop :=
  ∀ e : Engine,
    e.update.i = e.i + e.w ∧
    e.update.j = e.k + e.S.read (e.j + e.S.read e.update.i) ∧
    e.update.k = e.update.i + e.k + e.S.read e.update.j ∧
    (∀ p : Byte, e.update.S.read p =
      if p = e.update.i then e.S.read e.update.j
      else if p = e.update.j then e.S.read e.update.i else e.S.read p) ∧
    e.update.z = e.z ∧ e.update.a = e.a ∧ e.update.w = e.w

/-- `whip` (R113): 512 updates, then `w + 2` once; `i` ends where it began, `z` and `a` are
unchanged. -/
def Obligations.WhipIs512Updates : Prop :=
  ∀ e : Engine,
    e.whip = { Engine.update^[512] e with w := e.w + 2 } ∧ e.whip.i = e.i ∧ e.whip.z = e.z ∧
      e.whip.a = e.a

/-- `crush` (R114): after the pass every lower position holds the smaller entry of its pair and the
upper one the larger; registers are not changed. The direction is that of the published algorithm,
which R114 takes from general knowledge (notes/assumptions/10). -/
def Obligations.CrushOrdersPairs : Prop :=
  ∀ e : Engine,
    (∀ p : Byte, p.toNat < 128 →
      (e.crush.S.read p).toNat = min (e.S.read p).toNat (e.S.read (255 - p)).toNat ∧
      (e.crush.S.read (255 - p)).toNat = max (e.S.read p).toNat (e.S.read (255 - p)).toNat) ∧
    e.crush = { e with S := e.crush.S }

/-! ### PE commands (40_permutation_engine.md, part 2) -/

/-- `PE.INIT` installs what R110 says and touches nothing else. -/
def Obligations.PeInitInstalls : Prop :=
  ∀ s : State, ∃ S : Table, (∀ x : Byte, S.read x = x) ∧
    exec .peInit s = .next { s with
      pe := { i := 0, j := 0, k := 0, z := 0, a := 0, w := 1, S := S }
      responses := s.responses ++ [⟨0x00, []⟩]
      held := none }

/-- One byte absorbed (R116, R117), for every `a`: low nibble first, each nibble swapped with
position `128 + nibble`. Below 127 no shuffle runs; at 127 the low nibble brings `a` to 128 and the
shuffle falls between the two nibbles; at 128 it comes before both. -/
def Obligations.PeAbsorbOneByte : Prop :=
  (∀ (s : State) (b : Byte), s.pe.a ≠ 127 → s.pe.a ≠ 128 →
    exec (.peAbsorb [b]) s = .next { s with
      pe := { s.pe with
        S := (s.pe.S.swap s.pe.a (BitVec.ofNat 8 (128 + b.toNat % 16))).swap (s.pe.a + 1)
          (BitVec.ofNat 8 (128 + b.toNat / 16))
        a := s.pe.a + 2 }
      responses := s.responses ++ [⟨0x00, []⟩]
      held := none }) ∧
  (∀ (s : State) (b : Byte), s.pe.a = 127 → ∃ u : State,
    exec .peShuffle { s with pe := { s.pe with
      S := s.pe.S.swap 127 (BitVec.ofNat 8 (128 + b.toNat % 16)), a := 128 } } = .next u ∧
    exec (.peAbsorb [b]) s = .next { s with
      pe := { u.pe with S := u.pe.S.swap 0 (BitVec.ofNat 8 (128 + b.toNat / 16)), a := 1 }
      responses := s.responses ++ [⟨0x00, []⟩]
      held := none }) ∧
  ∀ (s : State) (b : Byte), s.pe.a = 128 → ∃ u : State,
    exec .peShuffle s = .next u ∧
    exec (.peAbsorb [b]) s = .next { s with
      pe := { u.pe with
        S := (u.pe.S.swap 0 (BitVec.ofNat 8 (128 + b.toNat % 16))).swap 1
          (BitVec.ofNat 8 (128 + b.toNat / 16))
        a := 2 }
      responses := s.responses ++ [⟨0x00, []⟩]
      held := none }

/-- At the threshold `a == 128` an absorbed byte finds the engine shuffled: the same engine as
`PE.SHUFFLE` first (R116). -/
def Obligations.PeAbsorbAtThreshold : Prop :=
  ∀ (s : State) (bytes : List Byte), s.pe.a = 128 → bytes ≠ [] →
    ∃ u v e, exec .peShuffle s = .next u ∧ exec (.peAbsorb bytes) u = .next v ∧ v.pe = e ∧
      exec (.peAbsorb bytes) s = .next { s with
        pe := e, responses := s.responses ++ [⟨0x00, []⟩], held := none }

/-- While the nibbles fit, absorbing changes only the table and `a`, which counts them (R118): "64
bytes bring `a` to 128 with no shuffle". -/
def Obligations.PeAbsorbCounts : Prop :=
  ∀ (s : State) (bytes : List Byte), s.pe.a.toNat + 2 * bytes.length ≤ 128 →
    ∃ S : Table, (s.pe.S.IsPerm → S.IsPerm) ∧
      exec (.peAbsorb bytes) s = .next { s with
        pe := { s.pe with S := S, a := BitVec.ofNat 8 (s.pe.a.toNat + 2 * bytes.length) }
        responses := s.responses ++ [⟨0x00, []⟩]
        held := none }

/-- "Splitting a byte string over several `PE.ABSORB` commands gives the same state as one command
with the whole string" (R125); every string is absorbed. -/
def Obligations.PeAbsorbSplits : Prop :=
  ∀ (s : State) (p q : List Byte), ∃ u v : State,
    exec (.peAbsorb p) s = .next u ∧ exec (.peAbsorb q) u = .next v ∧
    exec (.peAbsorb (p ++ q)) s = .next { s with
      pe := v.pe, responses := s.responses ++ [⟨0x00, []⟩], held := none }

/-- `PE.ABSORBSTOP` (R119): a shuffle first exactly when `a == 128`, then `a + 1`; it swaps
nothing. -/
def Obligations.PeAbsorbStopCounts : Prop :=
  (∀ s : State, s.pe.a ≠ 128 →
    exec .peAbsorbStop s = .next { s with
      pe := { s.pe with a := s.pe.a + 1 }
      responses := s.responses ++ [⟨0x00, []⟩]
      held := none }) ∧
  ∀ s : State, s.pe.a = 128 → ∃ u, exec .peShuffle s = .next u ∧
    exec .peAbsorbStop s = .next { s with
      pe := { u.pe with a := 1 }, responses := s.responses ++ [⟨0x00, []⟩], held := none }

/-- `PE.SHUFFLE` (R115): whip, crush, whip, crush, whip, then `a <- 0`, whatever `a`; it adds 6 to
`w` and keeps `i` and `z`. -/
def Obligations.PeShuffleMixes : Prop :=
  ∀ s : State, ∃ e : Engine, e = { s.pe.whip.crush.whip.crush.whip with a := 0 } ∧
    e.i = s.pe.i ∧ e.z = s.pe.z ∧ e.w = s.pe.w + 6 ∧
    exec .peShuffle s = .next { s with
      pe := e, responses := s.responses ++ [⟨0x00, []⟩], held := none }

/-- `PE.DRIP` with `a == 0` (R111, R112, R120): no shuffle, one update, and the byte
`S[j + S[i + S[z + k]]]` of the updated engine, which becomes `z` and is the answer: the spec's
decision D1 (notes/assumptions/10). -/
def Obligations.PeDripUnabsorbed : Prop :=
  ∀ s : State, s.pe.a = 0 →
    ∃ (e : Engine) (b : Byte),
      e.i = s.pe.i + s.pe.w ∧
      e.j = s.pe.k + s.pe.S.read (s.pe.j + s.pe.S.read e.i) ∧
      e.k = e.i + s.pe.k + s.pe.S.read e.j ∧
      e.S = s.pe.S.swap e.i e.j ∧
      b = e.S.read (e.j + e.S.read (e.i + e.S.read (s.pe.z + e.k))) ∧
      e.z = b ∧ e.a = 0 ∧ e.w = s.pe.w ∧
      exec .peDrip s = .next { s with
        pe := e, responses := s.responses ++ [⟨0x00, [b]⟩], held := none }

/-- `PE.DRIP` with `a > 0` is `PE.SHUFFLE` and then `PE.DRIP` (R120); after it `a == 0`, `z` is the
byte and `i` has advanced by the new `w`. -/
def Obligations.PeDripShufflesFirst : Prop :=
  ∀ s : State, s.pe.a ≠ 0 →
    ∃ (u : State) (e : Engine) (b : Byte), exec .peShuffle s = .next u ∧
      exec .peDrip u = .next { u with
        pe := e, responses := u.responses ++ [⟨0x00, [b]⟩], held := none } ∧
      e.a = 0 ∧ e.z = b ∧ e.w = s.pe.w + 6 ∧ e.i = s.pe.i + (s.pe.w + 6) ∧
      exec .peDrip s = .next { s with
        pe := e, responses := s.responses ++ [⟨0x00, [b]⟩], held := none }

/-- `PE.SQUEEZE` (R121): `n + 1` bytes are a drip and `n` more; none still shuffles when `a > 0`
and changes nothing when `a == 0`. -/
def Obligations.PeSqueezeIsDrips : Prop :=
  (∀ s : State, s.pe.a = 0 → exec (.peSqueeze 0) s = .next { s with
    responses := s.responses ++ [⟨0x00, []⟩], held := none }) ∧
  (∀ s : State, s.pe.a ≠ 0 → ∃ u, exec .peShuffle s = .next u ∧
    exec (.peSqueeze 0) s = .next { s with
      pe := u.pe, responses := s.responses ++ [⟨0x00, []⟩], held := none }) ∧
  ∀ (s : State) (n m : BitVec 16), m.toNat = n.toNat + 1 →
    ∃ (u v : State) (b : Byte) (bs : List Byte),
      exec .peDrip s = .next u ∧ u.responses = s.responses ++ [⟨0x00, [b]⟩] ∧
      exec (.peSqueeze n) u = .next v ∧ v.responses = u.responses ++ [⟨0x00, bs⟩] ∧
      bs.length = n.toNat ∧
      exec (.peSqueeze m) s = .next { s with
        pe := v.pe, responses := s.responses ++ [⟨0x00, b :: bs⟩], held := none }

/-- `PE.SETPRIME` captures the live state whole and sets `PRIME_VALID` (R122, R130); `PE.GETPRIME`
restores a captured one whole and keeps it (R123, R131). -/
def Obligations.PrimeCapturesAndRestores : Prop :=
  (∀ s : State, exec .peSetPrime s = .next { s with
    prime := some s.pe
    flags := s.flags ||| 0x04
    responses := s.responses ++ [⟨0x00, []⟩]
    held := none }) ∧
  ∀ (s : State) (e : Engine), s.flags.getLsbD 2 = true → s.prime = some e →
    exec .peGetPrime s = .next { s with
      pe := e, responses := s.responses ++ [⟨0x00, []⟩], held := none }

/-- Priming isolation (R123, T7): after `PE.SETPRIME` and any commands but the two that write the
snapshot, `PE.GETPRIME` brings back exactly the captured table and registers. -/
def Obligations.PrimingIsolation : Prop :=
  ∀ (s s1 s2 : State) (is : List Instr), exec .peSetPrime s = .next s1 →
    (∀ i ∈ is, ¬ writesSnapshot i) → execAll is s1 = .next s2 →
    ∃ s3, exec .peGetPrime s2 = .next s3 ∧ s3.pe = s.pe ∧
      s3.responses = s2.responses ++ [⟨0x00, []⟩]

/-- `PE.HASH` equals `PE.INIT; PE.ABSORB message; PE.ABSORBSTOP; PE.ABSORB r; PE.SQUEEZE #r` with
`r = min(OUTLEN, 255)` (R132 (5)): the same engine, the same bytes, `r` of them. -/
def Obligations.PeHashIsSequence : Prop :=
  ∀ (s : State) (n : BitVec 16) (m : List Byte), ∃ (u : State) (d : List Byte),
    execAll [.peInit, .peAbsorb m, .peAbsorbStop, .peAbsorb [BitVec.ofNat 8 (min n.toNat 255)],
      .peSqueeze (BitVec.ofNat 16 (min n.toNat 255))] s = .next u ∧
    u.responses.getLast? = some ⟨0x00, d⟩ ∧ d.length = min n.toNat 255 ∧
    exec (.peHash n m) s = .next { s with
      pe := u.pe, responses := s.responses ++ [⟨0x00, d⟩], held := none }

/-- `PE.MAC` equals its sequence of simpler commands (R133, V32). -/
def Obligations.PeMacIsSequence : Prop :=
  ∀ (s : State) (n : BitVec 16) (k m : List Byte), ∃ (u : State) (d : List Byte),
    execAll [.peInit, .peAbsorb k, .peAbsorbStop, .peAbsorb m, .peAbsorbStop,
      .peAbsorb [BitVec.ofNat 8 (min n.toNat 255)],
      .peSqueeze (BitVec.ofNat 16 (min n.toNat 255))] s = .next u ∧
    u.responses.getLast? = some ⟨0x00, d⟩ ∧ d.length = min n.toNat 255 ∧
    exec (.peMac n k m) s = .next { s with
      pe := u.pe, responses := s.responses ++ [⟨0x00, d⟩], held := none }

/-- A hash or MAC depends on nothing but its operands: from any two states, and for any two lengths
that clamp to the same number, it answers the same bytes and leaves the same engine (R132 (4),
R133). Equal lengths are one case; another is a length above 255, which gives "exactly the 255 bytes
that `OUTLEN == 255` gives" (R132 (1)). -/
def Obligations.HashAndMacClampAndForget : Prop :=
  ∀ (s s' : State) (n n' : BitVec 16) (k m : List Byte), min n.toNat 255 = min n'.toNat 255 →
    ∃ (e e' : Engine) (d d' : List Byte), d.length = min n.toNat 255 ∧
      d'.length = min n.toNat 255 ∧
      exec (.peHash n m) s = .next { s with
        pe := e, responses := s.responses ++ [⟨0x00, d⟩], held := none } ∧
      exec (.peHash n' m) s' = .next { s' with
        pe := e, responses := s'.responses ++ [⟨0x00, d⟩], held := none } ∧
      exec (.peMac n k m) s = .next { s with
        pe := e', responses := s.responses ++ [⟨0x00, d'⟩], held := none } ∧
      exec (.peMac n' k m) s' = .next { s' with
        pe := e', responses := s'.responses ++ [⟨0x00, d'⟩], held := none }

/-! ### CS commands (41_cipher_session.md) -/

/-- A good `CS.SETKEY` (R151): no shuffle, `a = 33`, the snapshot equal to the live state, both
flags set, and the engine that of `PE.INIT; PE.ABSORB key; PE.ABSORBSTOP; PE.SETPRIME`. -/
def Obligations.CsSetKeyCaptures : Prop :=
  ∀ (s : State) (key : List Byte), key.length = 16 →
    ∃ (S : Table) (e : Engine) (u : State), S.IsPerm ∧
      e = { i := 0, j := 0, k := 0, z := 0, a := 33, w := 1, S := S } ∧
      execAll [.peInit, .peAbsorb key, .peAbsorbStop, .peSetPrime] s = .next u ∧ u.pe = e ∧
      exec (.csSetKey key) s = .next { s with
        pe := e
        prime := some e
        flags := s.flags ||| 0x05
        responses := s.responses ++ [⟨0x00, []⟩]
        held := none }

/-- `CS.NEWSEQ` with its RNG bytes ready (R150, R152), for every value of them: `SEQ` is their
big-endian number, they are taken, and the engine is the snapshot with the bytes absorbed. -/
def Obligations.CsNewSeqDraws : Prop :=
  ∀ (s : State) (e : Engine) (bytes rest : List Byte), s.flags.getLsbD 0 = true →
    s.prime = some e → bytes.length = s.nonceBytes.count → s.rng = bytes ++ rest →
    ∃ (v : BitVec 24) (u : State), v.toNat = beNat bytes ∧
      exec (.peAbsorb bytes) { s with pe := e } = .next u ∧
      exec .csNewSeq s = .next { s with
        pe := u.pe
        seq := v
        rng := rest
        responses := s.responses ++ [⟨0x00, []⟩]
        held := none }

/-- The hold (R212): a keyed `NEWSEQ` short of RNG bytes takes none and changes nothing; once the
bytes are supplied, the next step does exactly what the command would have done with them ready.
That no byte leaves the port before all are there is the model's form (notes/assumptions/3). -/
def Obligations.HeldCommandResumes : Prop :=
  (∀ (s : State) (more : List Byte), s.held = none → s.flags.getLsbD 0 = true → s.prime ≠ none →
    s.rng.length < s.nonceBytes.count → s.nonceBytes.count ≤ (s.rng ++ more).length →
    ∃ t, exec .csNewSeq s = .next { s with held := some .csNewSeq } ∧
      exec .csNewSeq (supplyRng more s) = .next t ∧ t.held = none ∧
      step (supplyRng more { s with held := some .csNewSeq }) = .next t) ∧
  ∀ (s : State) (more : List Byte), s.held = none → s.flags.getLsbD 1 = true →
    s.rng.length < 3 → 3 ≤ (s.rng ++ more).length →
    ∃ t, exec .abNewSeq s = .next { s with held := some .abNewSeq } ∧
      exec .abNewSeq (supplyRng more s) = .next t ∧ t.held = none ∧
      step (supplyRng more { s with held := some .abNewSeq }) = .next t

/-- `CS.NEWSEND` (R150, R153): `SEQ + 1` modulo `SEQ_MOD`, wrapping silently; the engine is the
snapshot with the new number's big-endian bytes absorbed, and those bytes are the answer. -/
def Obligations.CsNewSendCounts : Prop :=
  ∀ (s : State) (e : Engine), s.flags.getLsbD 0 = true → s.prime = some e →
    ∃ (v : BitVec 24) (bytes : List Byte) (u : State),
      v.toNat = (s.seq.toNat + 1) % s.nonceBytes.seqMod ∧
      bytes.length = s.nonceBytes.count ∧ beNat bytes = v.toNat ∧
      exec (.peAbsorb bytes) { s with pe := e } = .next u ∧
      exec .csNewSend s = .next { s with
        pe := u.pe
        seq := v
        responses := s.responses ++ [⟨0x00, bytes⟩]
        held := none }

/-- `CS.NEWRECV` (R150, R154): any value in range is accepted, and the engine is the snapshot with
its bytes absorbed. -/
def Obligations.CsNewRecvSets : Prop :=
  ∀ (s : State) (e : Engine) (v : BitVec 24), s.flags.getLsbD 0 = true → s.prime = some e →
    v.toNat < s.nonceBytes.seqMod →
    ∃ (bytes : List Byte) (u : State),
      bytes.length = s.nonceBytes.count ∧ beNat bytes = v.toNat ∧
      exec (.peAbsorb bytes) { s with pe := e } = .next u ∧
      exec (.csNewRecv v) s = .next { s with
        pe := u.pe
        seq := v
        responses := s.responses ++ [⟨0x00, []⟩]
        held := none }

/-- `CS.ENCRYPT` (R155): unkeyed it raises; the empty payload changes nothing; otherwise the first
byte gains the next drip modulo 256 and the rest goes on from there. -/
def Obligations.CsEncryptAddsDrips : Prop :=
  (∀ (s : State) (src : List Byte), s.flags.getLsbD 0 = false →
    exec (.csEncrypt src) s = .next { s with
      err := s.err ||| 0x02, responses := s.responses ++ [⟨0x02, []⟩], held := none }) ∧
  (∀ s : State, s.flags.getLsbD 0 = true → exec (.csEncrypt []) s = .next { s with
    responses := s.responses ++ [⟨0x00, []⟩], held := none }) ∧
  ∀ (s : State) (b : Byte) (src : List Byte), s.flags.getLsbD 0 = true →
    ∃ (u v : State) (ks : Byte) (d : List Byte),
      exec .peDrip s = .next u ∧ u.responses = s.responses ++ [⟨0x00, [ks]⟩] ∧
      exec (.csEncrypt src) u = .next v ∧ v.responses = u.responses ++ [⟨0x00, d⟩] ∧
      exec (.csEncrypt (b :: src)) s = .next { s with
        pe := v.pe
        responses := s.responses ++ [⟨0x00, BitVec.ofNat 8 (b.toNat + ks.toNat) :: d⟩]
        held := none }

/-- `CS.DECRYPT` (R156): as `CS.ENCRYPT`, the drip subtracted modulo 256. -/
def Obligations.CsDecryptSubtractsDrips : Prop :=
  (∀ (s : State) (src : List Byte), s.flags.getLsbD 0 = false →
    exec (.csDecrypt src) s = .next { s with
      err := s.err ||| 0x02, responses := s.responses ++ [⟨0x02, []⟩], held := none }) ∧
  (∀ s : State, s.flags.getLsbD 0 = true → exec (.csDecrypt []) s = .next { s with
    responses := s.responses ++ [⟨0x00, []⟩], held := none }) ∧
  ∀ (s : State) (b : Byte) (src : List Byte), s.flags.getLsbD 0 = true →
    ∃ (u v : State) (ks : Byte) (d : List Byte),
      exec .peDrip s = .next u ∧ u.responses = s.responses ++ [⟨0x00, [ks]⟩] ∧
      exec (.csDecrypt src) u = .next v ∧ v.responses = u.responses ++ [⟨0x00, d⟩] ∧
      exec (.csDecrypt (b :: src)) s = .next { s with
        pe := v.pe
        responses := s.responses ++ [⟨0x00, BitVec.ofNat 8 (b.toNat + 256 - ks.toNat) :: d⟩]
        held := none }

/-- A payload in two commands gives the bytes of one (R155 (3)), and the engine after a decrypt is
that after an encrypt of as many bytes (R156). -/
def Obligations.CsEncryptContinues : Prop :=
  ∀ (s : State) (p q p' q' : List Byte), s.flags.getLsbD 0 = true → p'.length = p.length →
    q'.length = q.length →
    ∃ (u v w : State) (c d : List Byte),
      exec (.csEncrypt p) s = .next u ∧ u.responses = s.responses ++ [⟨0x00, c⟩] ∧
      exec (.csEncrypt q) u = .next v ∧ v.responses = u.responses ++ [⟨0x00, d⟩] ∧
      exec (.csEncrypt (p ++ q)) s = .next { s with
        pe := v.pe, responses := s.responses ++ [⟨0x00, c ++ d⟩], held := none } ∧
      exec (.csDecrypt (p' ++ q')) s = .next w ∧ w.pe = v.pe

/-- Round trip (R159): a receiver core in any state, keyed with the same key and primed with the
same number, decrypts what the sender core encrypted. -/
def Obligations.CsRoundTrip : Prop :=
  ∀ (sender receiver : State) (key plain : List Byte) (n : BitVec 24), key.length = 16 →
    receiver.nonceBytes = sender.nonceBytes →
    ∃ (t u : State) (c : List Byte),
      execAll [.csSetKey key, .csNewRecv n, .csEncrypt plain] sender = .next t ∧
      t.responses.getLast? = some ⟨0x00, c⟩ ∧
      execAll [.csSetKey key, .csNewRecv n, .csDecrypt c] receiver = .next u ∧
      u.responses.getLast? = some ⟨0x00, plain⟩ ∧ u.pe = t.pe

/-- Determinism (R158). First: a session keyed once and then driven through any commands that do not
write the snapshot can be re-primed by `CS.NEWRECV` with any number, and encrypts as a second
session fresh from its key does. Second: two sessions keyed alike, each driven through such commands
and then primed by any of `CS.NEWSEQ`, `CS.NEWSEND` and `CS.NEWRECV`, that have reached the same
sequence number have the same engine, and encrypt every plaintext alike. -/
def Obligations.CsKeystreamDeterminism : Prop :=
  (∀ (s s' a : State) (key plain : List Byte) (n : BitVec 24) (is : List Instr),
    key.length = 16 → s'.nonceBytes = s.nonceBytes → (∀ i ∈ is, ¬ writesSnapshot i) →
    execAll (.csSetKey key :: is) s = .next a →
    ∃ (t u : State) (c : List Byte),
      execAll [.csNewRecv n, .csEncrypt plain] a = .next t ∧
      t.responses.getLast? = some ⟨0x00, c⟩ ∧
      execAll [.csSetKey key, .csNewRecv n, .csEncrypt plain] s' = .next u ∧
      u.responses.getLast? = some ⟨0x00, c⟩ ∧ u.pe = t.pe) ∧
  ∀ (s s' a a' b b' : State) (key : List Byte) (is is' : List Instr) (i i' : Instr),
    key.length = 16 → s'.nonceBytes = s.nonceBytes →
    (∀ j ∈ is, ¬ writesSnapshot j) → (∀ j ∈ is', ¬ writesSnapshot j) →
    execAll (.csSetKey key :: is) s = .next a → execAll (.csSetKey key :: is') s' = .next a' →
    primesPacket i → primesPacket i' → exec i a = .next b → exec i' a' = .next b' →
    b.held = none → b'.held = none → b'.seq = b.seq →
    b'.pe = b.pe ∧ ∀ plain : List Byte, ∃ (t t' : State) (c : List Byte),
      exec (.csEncrypt plain) b = .next t ∧ t.responses = b.responses ++ [⟨0x00, c⟩] ∧
      exec (.csEncrypt plain) b' = .next t' ∧ t'.responses = b'.responses ++ [⟨0x00, c⟩] ∧
      t'.pe = t.pe

/-! ### AB commands (42_alternate_backend.md) -/

/-- The key schedule (R170) is the recurrence `kj <- kj + T[v] + key[v mod 7]; swap(T[v], T[kj])`
from the identity and 0, over `v` = 0..255: the spec's decision D2 (notes/assumptions/10). -/
def Obligations.AbKeyScheduleRecurrence : Prop :=
  ∀ key : List Byte, key.length = 7 →
    ∃ (tbl : Nat → Table) (kj : Nat → Byte), (∀ x : Byte, (tbl 0).read x = x) ∧ kj 0 = 0 ∧
      (∀ v < 256, ∃ b, key[v % 7]? = some b ∧
        kj (v + 1) = kj v + (tbl v).read (BitVec.ofNat 8 v) + b ∧
        tbl (v + 1) = (tbl v).swap (BitVec.ofNat 8 v) (kj (v + 1))) ∧
      abKeySchedule key = tbl 256

/-- A good `AB.SETKEY` (R174): `T` and `PT` are the key schedule's table after one combine pass
over 1536 bytes of any value, seeded from the counters as they stand; only `AB_KEYED` is set and
the counters are not written. -/
def Obligations.AbSetKeyBurnsIn : Prop :=
  ∀ (s : State) (key src : List Byte), key.length = 7 → src.length = 1536 →
    ∃ (T : Table) (u : State), T.IsPerm ∧
      exec (.abCombine src)
        { s with flags := s.flags ||| 0x02, T := some (abKeySchedule key) } = .next u ∧
      u.T = some T ∧
      exec (.abSetKey key) s = .next { s with
        T := some T
        PT := some T
        flags := s.flags ||| 0x02
        responses := s.responses ++ [⟨0x00, []⟩]
        held := none }

/-- `AB.NEWSEQ` with three RNG bytes ready (R175), for every value of them: the counters are the
bytes, `T` is untouched. -/
def Obligations.AbNewSeqDraws : Prop :=
  ∀ (s : State) (b0 b1 b2 : Byte) (rest : List Byte), s.flags.getLsbD 1 = true →
    s.rng = b0 :: b1 :: b2 :: rest →
    ∃ v : BitVec 16, v.toNat = beNat [b0, b1] ∧
      exec .abNewSeq s = .next { s with
        aseq := v
        roll := b2
        rng := rest
        responses := s.responses ++ [⟨0x00, []⟩]
        held := none }

/-- `AB.NEWSEND` (R176): `T = PT`, `ASEQ + 1`, `ROLL + 1` exactly when `ASEQ` wraps; both counters
answered. -/
def Obligations.AbNewSendCounts : Prop :=
  ∀ (s : State) (PT : Table), s.flags.getLsbD 1 = true → s.PT = some PT →
    ∃ (v : BitVec 16) (r hi lo : Byte), v.toNat = (s.aseq.toNat + 1) % 65536 ∧
      r.toNat = (if s.aseq.toNat = 65535 then (s.roll.toNat + 1) % 256 else s.roll.toNat) ∧
      beNat [hi, lo] = v.toNat ∧
      exec .abNewSend s = .next { s with
        T := some PT
        aseq := v
        roll := r
        responses := s.responses ++ [⟨0x00, [hi, lo, r]⟩]
        held := none }

/-- `AB.NEWRECV` (R177): `T = PT` and both counters from the operands; every value is accepted. -/
def Obligations.AbNewRecvSets : Prop :=
  ∀ (s : State) (PT : Table) (n : BitVec 16) (r : Byte), s.flags.getLsbD 1 = true →
    s.PT = some PT →
    exec (.abNewRecv n r) s = .next { s with
      T := some PT
      aseq := n
      roll := r
      responses := s.responses ++ [⟨0x00, []⟩]
      held := none }

/-- `AB.COMBINE` (R171, R172, R173, R178), for every `AB_SEED`: the indices are seeded from the
counters, each byte takes one step of the cipher and is XORed with what the step returns, and `T`
keeps the swaps. The step is the spec's decision D2 (notes/assumptions/10). -/
def Obligations.AbCombineSteps : Prop :=
  ∀ (s : State) (T : Table) (src : List Byte), s.flags.getLsbD 1 = true → s.T = some T →
    ∃ (tbl : Nat → Table) (ai aj : Nat → Byte) (dest : List Byte),
      (ai 0, aj 0) = Config.abSeed s.aseq s.roll ∧ tbl 0 = T ∧
      (∀ n < src.length,
        ai (n + 1) = ai n + 1 ∧
        aj (n + 1) = aj n + (tbl n).read (ai (n + 1)) ∧
        tbl (n + 1) = (tbl n).swap (ai (n + 1)) (aj (n + 1)) ∧
        ∃ b, src[n]? = some b ∧ dest[n]? = some ((tbl (n + 1)).read
          ((tbl (n + 1)).read (ai (n + 1)) + (tbl (n + 1)).read (aj (n + 1))) ^^^ b)) ∧
      dest.length = src.length ∧
      exec (.abCombine src) s = .next { s with
        T := some (tbl src.length)
        responses := s.responses ++ [⟨0x00, dest⟩]
        held := none }

/-- AB round trip (R181): two cores keyed from equal counters and primed alike; combining what the
one combined gives the plaintext back. -/
def Obligations.AbRoundTrip : Prop :=
  ∀ (sender receiver : State) (key plain : List Byte) (n : BitVec 16) (r : Byte), key.length = 7 →
    receiver.aseq = sender.aseq → receiver.roll = sender.roll →
    ∃ (t u : State) (c : List Byte),
      execAll [.abSetKey key, .abNewRecv n r, .abCombine plain] sender = .next t ∧
      t.responses.getLast? = some ⟨0x00, c⟩ ∧
      execAll [.abSetKey key, .abNewRecv n r, .abCombine c] receiver = .next u ∧
      u.responses.getLast? = some ⟨0x00, plain⟩ ∧ u.T = t.T

/-! ### The read commands (41, 42, 43) -/

/-- `CS.RDSEQ`, `AB.RDSEQ` and `SYS.RDSTAT` change no state and answer what the registers hold
(R157, R179, R190): big-endian bytes, and `FLAGS`, `ERR`, `NONCE_BYTES`. They need no key. -/
def Obligations.ReadCommandsReport : Prop :=
  (∀ s : State, s.seq.toNat < s.nonceBytes.seqMod →
    ∃ bytes : List Byte, bytes.length = s.nonceBytes.count ∧ beNat bytes = s.seq.toNat ∧
      exec .csRdSeq s = .next { s with
        responses := s.responses ++ [⟨0x00, bytes⟩], held := none }) ∧
  (∀ s : State, ∃ hi lo : Byte, beNat [hi, lo] = s.aseq.toNat ∧
    exec .abRdSeq s = .next { s with
      responses := s.responses ++ [⟨0x00, [hi, lo, s.roll]⟩], held := none }) ∧
  ∀ s : State, exec .sysRdStat s = .next { s with
    responses := s.responses ++ [⟨0x00, [s.flags, s.err, BitVec.ofNat 8 s.nonceBytes.count]⟩]
    held := none }
end

