-- ==== Sys2Proof/Laws/State.lean ====
section
/-! SUPPORT. What every field of State reads after every named update of it. -/

namespace Sys2Proof.Machine

variable (s : State)

/-! ### setCsKeyed -/

@[simp] theorem setCsKeyed_pe : (setCsKeyed s).pe = s.pe := rfl
@[simp] theorem setCsKeyed_prime : (setCsKeyed s).prime = s.prime := rfl
@[simp] theorem setCsKeyed_seq : (setCsKeyed s).seq = s.seq := rfl
@[simp] theorem setCsKeyed_T : (setCsKeyed s).T = s.T := rfl
@[simp] theorem setCsKeyed_PT : (setCsKeyed s).PT = s.PT := rfl
@[simp] theorem setCsKeyed_aseq : (setCsKeyed s).aseq = s.aseq := rfl
@[simp] theorem setCsKeyed_roll : (setCsKeyed s).roll = s.roll := rfl
@[simp] theorem setCsKeyed_flags : (setCsKeyed s).flags = s.flags ||| 0x01 := rfl
@[simp] theorem setCsKeyed_err : (setCsKeyed s).err = s.err := rfl
@[simp] theorem setCsKeyed_nonceBytes : (setCsKeyed s).nonceBytes = s.nonceBytes := rfl
@[simp] theorem setCsKeyed_held : (setCsKeyed s).held = s.held := rfl
@[simp] theorem setCsKeyed_commands : (setCsKeyed s).commands = s.commands := rfl
@[simp] theorem setCsKeyed_rng : (setCsKeyed s).rng = s.rng := rfl
@[simp] theorem setCsKeyed_responses : (setCsKeyed s).responses = s.responses := rfl

/-! ### setAbKeyed -/

@[simp] theorem setAbKeyed_pe : (setAbKeyed s).pe = s.pe := rfl
@[simp] theorem setAbKeyed_prime : (setAbKeyed s).prime = s.prime := rfl
@[simp] theorem setAbKeyed_seq : (setAbKeyed s).seq = s.seq := rfl
@[simp] theorem setAbKeyed_T : (setAbKeyed s).T = s.T := rfl
@[simp] theorem setAbKeyed_PT : (setAbKeyed s).PT = s.PT := rfl
@[simp] theorem setAbKeyed_aseq : (setAbKeyed s).aseq = s.aseq := rfl
@[simp] theorem setAbKeyed_roll : (setAbKeyed s).roll = s.roll := rfl
@[simp] theorem setAbKeyed_flags : (setAbKeyed s).flags = s.flags ||| 0x02 := rfl
@[simp] theorem setAbKeyed_err : (setAbKeyed s).err = s.err := rfl
@[simp] theorem setAbKeyed_nonceBytes : (setAbKeyed s).nonceBytes = s.nonceBytes := rfl
@[simp] theorem setAbKeyed_held : (setAbKeyed s).held = s.held := rfl
@[simp] theorem setAbKeyed_commands : (setAbKeyed s).commands = s.commands := rfl
@[simp] theorem setAbKeyed_rng : (setAbKeyed s).rng = s.rng := rfl
@[simp] theorem setAbKeyed_responses : (setAbKeyed s).responses = s.responses := rfl

/-! ### setPrimeValid -/

@[simp] theorem setPrimeValid_pe : (setPrimeValid s).pe = s.pe := rfl
@[simp] theorem setPrimeValid_prime : (setPrimeValid s).prime = s.prime := rfl
@[simp] theorem setPrimeValid_seq : (setPrimeValid s).seq = s.seq := rfl
@[simp] theorem setPrimeValid_T : (setPrimeValid s).T = s.T := rfl
@[simp] theorem setPrimeValid_PT : (setPrimeValid s).PT = s.PT := rfl
@[simp] theorem setPrimeValid_aseq : (setPrimeValid s).aseq = s.aseq := rfl
@[simp] theorem setPrimeValid_roll : (setPrimeValid s).roll = s.roll := rfl
@[simp] theorem setPrimeValid_flags : (setPrimeValid s).flags = s.flags ||| 0x04 := rfl
@[simp] theorem setPrimeValid_err : (setPrimeValid s).err = s.err := rfl
@[simp] theorem setPrimeValid_nonceBytes : (setPrimeValid s).nonceBytes = s.nonceBytes := rfl
@[simp] theorem setPrimeValid_held : (setPrimeValid s).held = s.held := rfl
@[simp] theorem setPrimeValid_commands : (setPrimeValid s).commands = s.commands := rfl
@[simp] theorem setPrimeValid_rng : (setPrimeValid s).rng = s.rng := rfl
@[simp] theorem setPrimeValid_responses : (setPrimeValid s).responses = s.responses := rfl

/-! ### logError -/

@[simp] theorem logError_pe (e : Error) : (logError e s).pe = s.pe := rfl
@[simp] theorem logError_prime (e : Error) : (logError e s).prime = s.prime := rfl
@[simp] theorem logError_seq (e : Error) : (logError e s).seq = s.seq := rfl
@[simp] theorem logError_T (e : Error) : (logError e s).T = s.T := rfl
@[simp] theorem logError_PT (e : Error) : (logError e s).PT = s.PT := rfl
@[simp] theorem logError_aseq (e : Error) : (logError e s).aseq = s.aseq := rfl
@[simp] theorem logError_roll (e : Error) : (logError e s).roll = s.roll := rfl
@[simp] theorem logError_flags (e : Error) : (logError e s).flags = s.flags := rfl
@[simp] theorem logError_err (e : Error) : (logError e s).err = s.err ||| errBit e := rfl
@[simp] theorem logError_nonceBytes (e : Error) : (logError e s).nonceBytes = s.nonceBytes := rfl
@[simp] theorem logError_held (e : Error) : (logError e s).held = s.held := rfl
@[simp] theorem logError_commands (e : Error) : (logError e s).commands = s.commands := rfl
@[simp] theorem logError_rng (e : Error) : (logError e s).rng = s.rng := rfl
@[simp] theorem logError_responses (e : Error) : (logError e s).responses = s.responses := rfl

/-! ### answer -/

@[simp] theorem answer_pe (p : Packet) : (answer p s).pe = s.pe := rfl
@[simp] theorem answer_prime (p : Packet) : (answer p s).prime = s.prime := rfl
@[simp] theorem answer_seq (p : Packet) : (answer p s).seq = s.seq := rfl
@[simp] theorem answer_T (p : Packet) : (answer p s).T = s.T := rfl
@[simp] theorem answer_PT (p : Packet) : (answer p s).PT = s.PT := rfl
@[simp] theorem answer_aseq (p : Packet) : (answer p s).aseq = s.aseq := rfl
@[simp] theorem answer_roll (p : Packet) : (answer p s).roll = s.roll := rfl
@[simp] theorem answer_flags (p : Packet) : (answer p s).flags = s.flags := rfl
@[simp] theorem answer_err (p : Packet) : (answer p s).err = s.err := rfl
@[simp] theorem answer_nonceBytes (p : Packet) : (answer p s).nonceBytes = s.nonceBytes := rfl
@[simp] theorem answer_held (p : Packet) : (answer p s).held = none := rfl
@[simp] theorem answer_commands (p : Packet) : (answer p s).commands = s.commands := rfl
@[simp] theorem answer_rng (p : Packet) : (answer p s).rng = s.rng := rfl
@[simp] theorem answer_responses (p : Packet) : (answer p s).responses = s.responses ++ [p] := rfl

/-! ### respond -/

@[simp] theorem respond_pe (d : List Byte) : (respond d s).pe = s.pe := rfl
@[simp] theorem respond_prime (d : List Byte) : (respond d s).prime = s.prime := rfl
@[simp] theorem respond_seq (d : List Byte) : (respond d s).seq = s.seq := rfl
@[simp] theorem respond_T (d : List Byte) : (respond d s).T = s.T := rfl
@[simp] theorem respond_PT (d : List Byte) : (respond d s).PT = s.PT := rfl
@[simp] theorem respond_aseq (d : List Byte) : (respond d s).aseq = s.aseq := rfl
@[simp] theorem respond_roll (d : List Byte) : (respond d s).roll = s.roll := rfl
@[simp] theorem respond_flags (d : List Byte) : (respond d s).flags = s.flags := rfl
@[simp] theorem respond_err (d : List Byte) : (respond d s).err = s.err := rfl
@[simp] theorem respond_nonceBytes (d : List Byte) : (respond d s).nonceBytes = s.nonceBytes := rfl
@[simp] theorem respond_held (d : List Byte) : (respond d s).held = none := rfl
@[simp] theorem respond_commands (d : List Byte) : (respond d s).commands = s.commands := rfl
@[simp] theorem respond_rng (d : List Byte) : (respond d s).rng = s.rng := rfl
@[simp] theorem respond_responses (d : List Byte) : (respond d s).responses = s.responses ++ [⟨0x00, d⟩] := rfl

/-! ### raise -/

@[simp] theorem raise_pe (e : Error) : (raise e s).pe = s.pe := rfl
@[simp] theorem raise_prime (e : Error) : (raise e s).prime = s.prime := rfl
@[simp] theorem raise_seq (e : Error) : (raise e s).seq = s.seq := rfl
@[simp] theorem raise_T (e : Error) : (raise e s).T = s.T := rfl
@[simp] theorem raise_PT (e : Error) : (raise e s).PT = s.PT := rfl
@[simp] theorem raise_aseq (e : Error) : (raise e s).aseq = s.aseq := rfl
@[simp] theorem raise_roll (e : Error) : (raise e s).roll = s.roll := rfl
@[simp] theorem raise_flags (e : Error) : (raise e s).flags = s.flags := rfl
@[simp] theorem raise_err (e : Error) : (raise e s).err = s.err ||| errBit e := rfl
@[simp] theorem raise_nonceBytes (e : Error) : (raise e s).nonceBytes = s.nonceBytes := rfl
@[simp] theorem raise_held (e : Error) : (raise e s).held = none := rfl
@[simp] theorem raise_commands (e : Error) : (raise e s).commands = s.commands := rfl
@[simp] theorem raise_rng (e : Error) : (raise e s).rng = s.rng := rfl
@[simp] theorem raise_responses (e : Error) : (raise e s).responses = s.responses ++ [⟨e.code, []⟩] := rfl

/-! ### hold -/

@[simp] theorem hold_pe (h : Held) : (hold h s).pe = s.pe := rfl
@[simp] theorem hold_prime (h : Held) : (hold h s).prime = s.prime := rfl
@[simp] theorem hold_seq (h : Held) : (hold h s).seq = s.seq := rfl
@[simp] theorem hold_T (h : Held) : (hold h s).T = s.T := rfl
@[simp] theorem hold_PT (h : Held) : (hold h s).PT = s.PT := rfl
@[simp] theorem hold_aseq (h : Held) : (hold h s).aseq = s.aseq := rfl
@[simp] theorem hold_roll (h : Held) : (hold h s).roll = s.roll := rfl
@[simp] theorem hold_flags (h : Held) : (hold h s).flags = s.flags := rfl
@[simp] theorem hold_err (h : Held) : (hold h s).err = s.err := rfl
@[simp] theorem hold_nonceBytes (h : Held) : (hold h s).nonceBytes = s.nonceBytes := rfl
@[simp] theorem hold_held (h : Held) : (hold h s).held = some h := rfl
@[simp] theorem hold_commands (h : Held) : (hold h s).commands = s.commands := rfl
@[simp] theorem hold_rng (h : Held) : (hold h s).rng = s.rng := rfl
@[simp] theorem hold_responses (h : Held) : (hold h s).responses = s.responses := rfl

/-! ### setPrime -/

@[simp] theorem setPrime_pe : (setPrime s).pe = s.pe := rfl
@[simp] theorem setPrime_prime : (setPrime s).prime = some s.pe := rfl
@[simp] theorem setPrime_seq : (setPrime s).seq = s.seq := rfl
@[simp] theorem setPrime_T : (setPrime s).T = s.T := rfl
@[simp] theorem setPrime_PT : (setPrime s).PT = s.PT := rfl
@[simp] theorem setPrime_aseq : (setPrime s).aseq = s.aseq := rfl
@[simp] theorem setPrime_roll : (setPrime s).roll = s.roll := rfl
@[simp] theorem setPrime_flags : (setPrime s).flags = s.flags := rfl
@[simp] theorem setPrime_err : (setPrime s).err = s.err := rfl
@[simp] theorem setPrime_nonceBytes : (setPrime s).nonceBytes = s.nonceBytes := rfl
@[simp] theorem setPrime_held : (setPrime s).held = s.held := rfl
@[simp] theorem setPrime_commands : (setPrime s).commands = s.commands := rfl
@[simp] theorem setPrime_rng : (setPrime s).rng = s.rng := rfl
@[simp] theorem setPrime_responses : (setPrime s).responses = s.responses := rfl

/-! ### bumpAbCounters -/

@[simp] theorem bumpAbCounters_pe : (bumpAbCounters s).pe = s.pe := rfl
@[simp] theorem bumpAbCounters_prime : (bumpAbCounters s).prime = s.prime := rfl
@[simp] theorem bumpAbCounters_seq : (bumpAbCounters s).seq = s.seq := rfl
@[simp] theorem bumpAbCounters_T : (bumpAbCounters s).T = s.T := rfl
@[simp] theorem bumpAbCounters_PT : (bumpAbCounters s).PT = s.PT := rfl
@[simp] theorem bumpAbCounters_aseq : (bumpAbCounters s).aseq = s.aseq + 1 := rfl
@[simp] theorem bumpAbCounters_roll : (bumpAbCounters s).roll = (if s.aseq + 1 = 0 then s.roll + 1 else s.roll) := rfl
@[simp] theorem bumpAbCounters_flags : (bumpAbCounters s).flags = s.flags := rfl
@[simp] theorem bumpAbCounters_err : (bumpAbCounters s).err = s.err := rfl
@[simp] theorem bumpAbCounters_nonceBytes : (bumpAbCounters s).nonceBytes = s.nonceBytes := rfl
@[simp] theorem bumpAbCounters_held : (bumpAbCounters s).held = s.held := rfl
@[simp] theorem bumpAbCounters_commands : (bumpAbCounters s).commands = s.commands := rfl
@[simp] theorem bumpAbCounters_rng : (bumpAbCounters s).rng = s.rng := rfl
@[simp] theorem bumpAbCounters_responses : (bumpAbCounters s).responses = s.responses := rfl

/-! ### supplyRng -/

@[simp] theorem supplyRng_pe (b : List Byte) : (supplyRng b s).pe = s.pe := rfl
@[simp] theorem supplyRng_prime (b : List Byte) : (supplyRng b s).prime = s.prime := rfl
@[simp] theorem supplyRng_seq (b : List Byte) : (supplyRng b s).seq = s.seq := rfl
@[simp] theorem supplyRng_T (b : List Byte) : (supplyRng b s).T = s.T := rfl
@[simp] theorem supplyRng_PT (b : List Byte) : (supplyRng b s).PT = s.PT := rfl
@[simp] theorem supplyRng_aseq (b : List Byte) : (supplyRng b s).aseq = s.aseq := rfl
@[simp] theorem supplyRng_roll (b : List Byte) : (supplyRng b s).roll = s.roll := rfl
@[simp] theorem supplyRng_flags (b : List Byte) : (supplyRng b s).flags = s.flags := rfl
@[simp] theorem supplyRng_err (b : List Byte) : (supplyRng b s).err = s.err := rfl
@[simp] theorem supplyRng_nonceBytes (b : List Byte) : (supplyRng b s).nonceBytes = s.nonceBytes := rfl
@[simp] theorem supplyRng_held (b : List Byte) : (supplyRng b s).held = s.held := rfl
@[simp] theorem supplyRng_commands (b : List Byte) : (supplyRng b s).commands = s.commands := rfl
@[simp] theorem supplyRng_rng (b : List Byte) : (supplyRng b s).rng = s.rng ++ b := rfl
@[simp] theorem supplyRng_responses (b : List Byte) : (supplyRng b s).responses = s.responses := rfl

/-! ### presentPacket -/

@[simp] theorem presentPacket_pe (p : Packet) : (presentPacket p s).pe = s.pe := rfl
@[simp] theorem presentPacket_prime (p : Packet) : (presentPacket p s).prime = s.prime := rfl
@[simp] theorem presentPacket_seq (p : Packet) : (presentPacket p s).seq = s.seq := rfl
@[simp] theorem presentPacket_T (p : Packet) : (presentPacket p s).T = s.T := rfl
@[simp] theorem presentPacket_PT (p : Packet) : (presentPacket p s).PT = s.PT := rfl
@[simp] theorem presentPacket_aseq (p : Packet) : (presentPacket p s).aseq = s.aseq := rfl
@[simp] theorem presentPacket_roll (p : Packet) : (presentPacket p s).roll = s.roll := rfl
@[simp] theorem presentPacket_flags (p : Packet) : (presentPacket p s).flags = s.flags := rfl
@[simp] theorem presentPacket_err (p : Packet) : (presentPacket p s).err = s.err := rfl
@[simp] theorem presentPacket_nonceBytes (p : Packet) : (presentPacket p s).nonceBytes = s.nonceBytes := rfl
@[simp] theorem presentPacket_held (p : Packet) : (presentPacket p s).held = s.held := rfl
@[simp] theorem presentPacket_commands (p : Packet) : (presentPacket p s).commands = s.commands ++ [p] := rfl
@[simp] theorem presentPacket_rng (p : Packet) : (presentPacket p s).rng = s.rng := rfl
@[simp] theorem presentPacket_responses (p : Packet) : (presentPacket p s).responses = s.responses := rfl

end Sys2Proof.Machine
end

