-- ==== Sys2Proof/Laws/Table.lean ====
section
/-! SUPPORT. Reads after writes and swaps, the identity, and that a swap keeps a permutation. -/

namespace Sys2Proof

theorem Table.read_write (t : Table) (x v y : Byte) :
    (t.write x v).read y = if x = y then v else t.read y := by
  simp only [Table.read, Table.write, Vector.getElem_set, BitVec.toNat_inj]

@[simp] theorem Table.read_write_self (t : Table) (x v : Byte) : (t.write x v).read x = v := by
  simp [Table.read_write]

/-- What a swap does to every entry. -/
theorem Table.read_swap (t : Table) (x y p : Byte) :
    (t.swap x y).read p = if p = x then t.read y else if p = y then t.read x else t.read p := by
  rw [Table.swap, Table.read_write, Table.read_write]
  by_cases hx : p = x <;> by_cases hy : p = y <;> simp_all [eq_comm]

/-- Two tables with the same entries are the same table. -/
theorem Table.ext_read {t u : Table} (h : ∀ x, t.read x = u.read x) : t = u := by
  apply Vector.ext
  intro n hn
  simpa [Table.read, Nat.mod_eq_of_lt hn] using h (BitVec.ofNat 8 n)

/-- "When the two indices are equal the swap leaves the table unchanged" (R59). -/
@[simp] theorem Table.swap_self (t : Table) (x : Byte) : t.swap x x = t :=
  Table.ext_read fun p => by rw [Table.read_swap]; split <;> simp_all

@[simp] theorem Table.read_identity (x : Byte) : Table.identity.read x = x := by
  simp [Table.read, Table.identity]

/-- A swap reads a table at the swapped positions. -/
theorem Table.read_swap_eq (t : Table) (x y p : Byte) :
    (t.swap x y).read p = t.read (Equiv.swap x y p) := by
  rw [Table.read_swap, Equiv.swap_apply_def]
  split
  · rfl
  · split <;> rfl

theorem Table.identity_isPerm : Table.identity.IsPerm := by
  have : Table.identity.read = id := funext Table.read_identity
  rw [Table.IsPerm, this]
  exact Function.bijective_id

/-- A swap keeps a permutation (R24). -/
theorem Table.IsPerm.swap {t : Table} (h : t.IsPerm) (x y : Byte) : (t.swap x y).IsPerm := by
  have : (t.swap x y).read = t.read ∘ Equiv.swap x y := funext (Table.read_swap_eq t x y)
  rw [Table.IsPerm, this]
  exact h.comp (Equiv.bijective _)

end Sys2Proof
end

