-- ==== Sys2Proof/Laws/Engine.lean ====
section
/-! SUPPORT. What each micro-operation of the engine can do: its registers, its bytes, and one lemma per body that carries any property of the engine through it, with R22 and R24 as the two cases. -/

namespace Sys2Proof.Machine

/-! ### update and whip (R111, R113) -/

@[simp] theorem Engine.update_i (e : Engine) : e.update.i = e.i + e.w := rfl
@[simp] theorem Engine.update_z (e : Engine) : e.update.z = e.z := rfl
@[simp] theorem Engine.update_a (e : Engine) : e.update.a = e.a := rfl
@[simp] theorem Engine.update_w (e : Engine) : e.update.w = e.w := rfl

theorem Engine.update_perm {e : Engine} (h : e.S.IsPerm) : e.update.S.IsPerm := h.swap _ _

theorem Engine.updates_induct {P : Engine → Prop} (step : ∀ e, P e → P e.update) (n : Nat)
    {e : Engine} (h : P e) : P (Engine.updates n e) := by
  induction n generalizing e with
  | zero => exact h
  | succ n ih => exact ih (step e h)

@[simp] theorem Engine.updates_z (n : Nat) (e : Engine) : (Engine.updates n e).z = e.z :=
  Engine.updates_induct (P := fun f => f.z = e.z) (fun _ h => h) n rfl
@[simp] theorem Engine.updates_a (n : Nat) (e : Engine) : (Engine.updates n e).a = e.a :=
  Engine.updates_induct (P := fun f => f.a = e.a) (fun _ h => h) n rfl
@[simp] theorem Engine.updates_w (n : Nat) (e : Engine) : (Engine.updates n e).w = e.w :=
  Engine.updates_induct (P := fun f => f.w = e.w) (fun _ h => h) n rfl

theorem Engine.updates_perm (n : Nat) {e : Engine} (h : e.S.IsPerm) :
    (Engine.updates n e).S.IsPerm :=
  Engine.updates_induct (P := fun f => f.S.IsPerm) (fun _ => Engine.update_perm) n h

/-- `n` updates advance `i` by `n * w`. -/
theorem Engine.updates_i (n : Nat) (e : Engine) :
    (Engine.updates n e).i = e.i + BitVec.ofNat 8 n * e.w := by
  induction n generalizing e with
  | zero => simp [Engine.updates]
  | succ n ih =>
    rw [Engine.updates, ih, Engine.update_i, Engine.update_w]
    have : BitVec.ofNat 8 (n + 1) = BitVec.ofNat 8 n + 1 := by simp [BitVec.ofNat_add]
    rw [this]
    ring

/-- `whip` written out once (R113); the lemmas below rewrite with it, so that no proof unfolds the
512 updates. -/
theorem Engine.whip_eq (e : Engine) : e.whip =
    { Engine.updates whipSteps e with w := (Engine.updates whipSteps e).w + 2 } := rfl

/-- "Since 512 is a multiple of 256, `i` has the same value after a `whip` as before it" (R113). -/
@[simp] theorem Engine.whip_i (e : Engine) : e.whip.i = e.i := by
  have h : BitVec.ofNat 8 whipSteps = 0 := by unfold whipSteps; rfl
  rw [Engine.whip_eq]
  simp only [Engine.updates_i, h]
  simp
@[simp] theorem Engine.whip_z (e : Engine) : e.whip.z = e.z := by
  rw [Engine.whip_eq]; exact Engine.updates_z _ _
@[simp] theorem Engine.whip_a (e : Engine) : e.whip.a = e.a := by
  rw [Engine.whip_eq]; exact Engine.updates_a _ _
@[simp] theorem Engine.whip_w (e : Engine) : e.whip.w = e.w + 2 := by
  rw [Engine.whip_eq]; simp only [Engine.updates_w]

theorem Engine.whip_perm {e : Engine} (h : e.S.IsPerm) : e.whip.S.IsPerm := by
  rw [Engine.whip_eq]; exact Engine.updates_perm whipSteps h

/-! ### crush (R114) -/

@[simp] theorem Engine.crush_i (e : Engine) : e.crush.i = e.i := rfl
@[simp] theorem Engine.crush_z (e : Engine) : e.crush.z = e.z := rfl
@[simp] theorem Engine.crush_a (e : Engine) : e.crush.a = e.a := rfl
@[simp] theorem Engine.crush_w (e : Engine) : e.crush.w = e.w := rfl

theorem crushPair_perm {t : Table} (h : t.IsPerm) (p : Byte) : (crushPair t p).IsPerm := by
  unfold crushPair
  split
  · exact h.swap _ _
  · exact h

theorem foldl_induct {α β : Type} {P : β → Prop} {f : β → α → β} (step : ∀ b a, P b → P (f b a))
    (l : List α) {b : β} (h : P b) : P (l.foldl f b) := by
  induction l generalizing b with
  | nil => exact h
  | cons a l ih => exact ih (step b a h)

theorem crushTable_perm {t : Table} (h : t.IsPerm) : (crushTable t).IsPerm :=
  foldl_induct (P := Table.IsPerm) (fun _ _ ht => crushPair_perm ht _) _ h

theorem Engine.crush_perm {e : Engine} (h : e.S.IsPerm) : e.crush.S.IsPerm :=
  crushTable_perm h

/-! ### shuffle (R115) -/

/-- The mixing of `shuffle` before it resets `a`. -/
def Engine.mixed (e : Engine) : Engine := e.whip.crush.whip.crush.whip

theorem Engine.shuffle_eq (e : Engine) : e.shuffle = { e.mixed with a := 0 } := rfl

theorem Engine.mixed_i (e : Engine) : e.mixed.i = e.i := by
  rw [Engine.mixed, Engine.whip_i, Engine.crush_i, Engine.whip_i, Engine.crush_i, Engine.whip_i]
theorem Engine.mixed_z (e : Engine) : e.mixed.z = e.z := by
  rw [Engine.mixed, Engine.whip_z, Engine.crush_z, Engine.whip_z, Engine.crush_z, Engine.whip_z]
theorem Engine.mixed_w (e : Engine) : e.mixed.w = e.w + 2 + 2 + 2 := by
  rw [Engine.mixed, Engine.whip_w, Engine.crush_w, Engine.whip_w, Engine.crush_w, Engine.whip_w]
theorem Engine.mixed_perm {e : Engine} (h : e.S.IsPerm) : e.mixed.S.IsPerm :=
  Engine.whip_perm (Engine.crush_perm (Engine.whip_perm (Engine.crush_perm (Engine.whip_perm h))))

@[simp] theorem Engine.shuffle_i (e : Engine) : e.shuffle.i = e.i := by
  rw [Engine.shuffle_eq]; exact e.mixed_i
@[simp] theorem Engine.shuffle_z (e : Engine) : e.shuffle.z = e.z := by
  rw [Engine.shuffle_eq]; exact e.mixed_z
@[simp] theorem Engine.shuffle_a (e : Engine) : e.shuffle.a = 0 := by rw [Engine.shuffle_eq]

/-- A shuffle "adds 6 to `w` modulo 256" (R115). -/
@[simp] theorem Engine.shuffle_w (e : Engine) : e.shuffle.w = e.w + 6 := by
  have h : e.mixed.w = e.w + 6 := by rw [Engine.mixed_w]; ring
  rw [Engine.shuffle_eq]; exact h

theorem Engine.shuffle_perm {e : Engine} (h : e.S.IsPerm) : e.shuffle.S.IsPerm := by
  rw [Engine.shuffle_eq]; exact Engine.mixed_perm h

theorem odd_add_even {x c : Byte} (hx : x.toNat % 2 = 1) (hc : c.toNat % 2 = 0) :
    (x + c).toNat % 2 = 1 := by
  rw [BitVec.toNat_add]; omega

/-- After the test of R116 and R119 the threshold is not reached. -/
theorem Engine.shuffleIfFull_a_ne (e : Engine) : e.shuffleIfFull.a ≠ 128 := by
  unfold Engine.shuffleIfFull
  split
  · rw [Engine.shuffle_a]; decide
  · assumption

/-- After the test of R120 and R121, `a` is 0. -/
@[simp] theorem Engine.shuffleIfAbsorbed_a (e : Engine) : e.shuffleIfAbsorbed.a = 0 := by
  unfold Engine.shuffleIfAbsorbed
  split
  · rfl
  · rename_i h
    exact BitVec.eq_of_toNat_eq (by simpa [BitVec.lt_def] using h)

theorem Engine.shuffleIfAbsorbed_eq_self {e : Engine} (h : e.a = 0) : e.shuffleIfAbsorbed = e := by
  simp [Engine.shuffleIfAbsorbed, h]

/-- The second test of R121 never shuffles: "The test inside the first `drip` is then always
false". -/
@[simp] theorem Engine.shuffleIfAbsorbed_idem (e : Engine) :
    e.shuffleIfAbsorbed.shuffleIfAbsorbed = e.shuffleIfAbsorbed :=
  Engine.shuffleIfAbsorbed_eq_self (by simp)

@[simp] theorem Engine.shuffleIfAbsorbed_i (e : Engine) : e.shuffleIfAbsorbed.i = e.i := by
  unfold Engine.shuffleIfAbsorbed; split <;> simp
@[simp] theorem Engine.shuffleIfAbsorbed_z (e : Engine) : e.shuffleIfAbsorbed.z = e.z := by
  unfold Engine.shuffleIfAbsorbed; split <;> simp
theorem Engine.shuffleIfAbsorbed_w (e : Engine) :
    e.shuffleIfAbsorbed.w = if e.a = 0 then e.w else e.w + 6 := by
  by_cases h : e.a = 0
  · simp [Engine.shuffleIfAbsorbed, h]
  · have : 0 < e.a := by
      rw [BitVec.lt_def]
      exact Nat.pos_of_ne_zero fun h' => h (BitVec.eq_of_toNat_eq (by simpa using h'))
    rw [Engine.shuffleIfAbsorbed, if_pos this, if_neg h, Engine.shuffle_w]

/-! ### absorbing (R116 to R119) -/

/-- Absorbing a string in two parts (R125). -/
theorem Engine.absorb_append (p q : List Byte) (e : Engine) :
    e.absorb (p ++ q) = (e.absorb p).absorb q := by
  simp [Engine.absorb, List.foldl_append]

@[simp] theorem Engine.absorb_nil (e : Engine) : e.absorb [] = e := rfl
theorem Engine.absorb_cons (b : Byte) (bs : List Byte) (e : Engine) :
    e.absorb (b :: bs) = (e.absorbByte b).absorb bs := rfl

theorem Engine.shuffleIfFull_eq_self {e : Engine} (h : e.a ≠ 128) : e.shuffleIfFull = e :=
  if_neg h

/-- A nibble below the threshold is absorbed without a shuffle (R116). -/
theorem Engine.absorbNibble_noShuffle {e : Engine} (h : e.a ≠ 128) (x : BitVec 4) :
    e.absorbNibble x = { e with S := e.S.swap e.a (absorbTarget x), a := e.a + 1 } := by
  simp only [Engine.absorbNibble, Engine.shuffleIfFull_eq_self h]

/-- A nibble at the threshold is absorbed into the shuffled engine, at position 0 (R116). -/
theorem Engine.absorbNibble_full {e : Engine} (h : e.a = 128) (x : BitVec 4) :
    e.absorbNibble x =
      { e.shuffle with S := e.shuffle.S.swap 0 (absorbTarget x), a := 1 } := by
  have h1 : e.shuffleIfFull = e.shuffle := if_pos h
  simp only [Engine.absorbNibble, h1, Engine.shuffle_a]
  rfl

/-- The target positions of a byte's nibbles as numbers (R10, R52 (b)). -/
theorem absorbTarget_low (b : Byte) :
    absorbTarget (lowNibble b) = BitVec.ofNat 8 (128 + b.toNat % 16) := by
  apply BitVec.eq_of_toNat_eq
  simp [absorbTarget, lowNibble, BitVec.extractLsb'_toNat]
theorem absorbTarget_high (b : Byte) :
    absorbTarget (highNibble b) = BitVec.ofNat 8 (128 + b.toNat / 16) := by
  apply BitVec.eq_of_toNat_eq
  have := b.isLt
  simp [absorbTarget, highNibble, BitVec.extractLsb'_toNat, Nat.shiftRight_eq_div_pow]
  omega

theorem Engine.absorbStop_noShuffle {e : Engine} (h : e.a ≠ 128) :
    e.absorbStop = { e with a := e.a + 1 } := by
  simp only [Engine.absorbStop, Engine.shuffleIfFull_eq_self h]

/-- While the nibbles fit below 128, absorbing changes the table and `a` only (R118). -/
theorem Engine.absorb_fits (bytes : List Byte) (e : Engine)
    (h : e.a.toNat + 2 * bytes.length ≤ 128) :
    (e.absorb bytes).a.toNat = e.a.toNat + 2 * bytes.length ∧
      e.absorb bytes = { e with S := (e.absorb bytes).S, a := (e.absorb bytes).a } := by
  induction bytes generalizing e with
  | nil => simp
  | cons b bs ih =>
    simp only [List.length_cons] at h
    have h1 : e.a ≠ 128 := fun h' => by rw [h'] at h; simp at h
    have h2 : e.a + 1 ≠ 128 := fun h' => by
      have := congrArg BitVec.toNat h'
      simp [BitVec.toNat_add] at this; omega
    have hb : e.absorbByte b = { e with
        S := (e.S.swap e.a (absorbTarget (lowNibble b))).swap (e.a + 1)
          (absorbTarget (highNibble b)), a := e.a + 1 + 1 } := by
      rw [Engine.absorbByte, Engine.absorbNibble_noShuffle h1,
        Engine.absorbNibble_noShuffle (by simpa using h2)]
    have ha : (e.absorbByte b).a.toNat = e.a.toNat + 2 := by
      rw [hb]; simp [BitVec.toNat_add]; omega
    obtain ⟨i1, i2⟩ := ih (e.absorbByte b) (by omega)
    refine ⟨by rw [Engine.absorb_cons, i1, ha]; simp; ring, ?_⟩
    rw [Engine.absorb_cons, i2, hb]

/-! ### dripping (R120, R121) -/

theorem Engine.drip_snd (e : Engine) :
    e.drip.2 = { e.shuffleIfAbsorbed.update with z := e.drip.1 } := rfl

@[simp] theorem Engine.drip_z (e : Engine) : e.drip.2.z = e.drip.1 := rfl
/-- "After any `drip`, `a == 0`" (R120). -/
@[simp] theorem Engine.drip_a (e : Engine) : e.drip.2.a = 0 := by simp [Engine.drip_snd]
@[simp] theorem Engine.drip_w (e : Engine) : e.drip.2.w = e.shuffleIfAbsorbed.w := rfl
@[simp] theorem Engine.drip_i (e : Engine) : e.drip.2.i = e.i + e.shuffleIfAbsorbed.w := by
  simp [Engine.drip_snd]

/-- The shuffle of a `drip` may be done before it. -/
@[simp] theorem Engine.drip_shuffleIfAbsorbed (e : Engine) : e.shuffleIfAbsorbed.drip = e.drip := by
  simp [Engine.drip]

@[simp] theorem Engine.drips_length (n : Nat) (e : Engine) : (Engine.drips n e).1.length = n := by
  induction n generalizing e with
  | zero => rfl
  | succ n ih => simp [Engine.drips, ih]

theorem Engine.drips_add (m n : Nat) (e : Engine) :
    Engine.drips (m + n) e = ((Engine.drips m e).1 ++ (Engine.drips n (Engine.drips m e).2).1,
      (Engine.drips n (Engine.drips m e).2).2) := by
  induction m generalizing e with
  | zero => simp [Engine.drips]
  | succ m ih => rw [Nat.succ_add]; simp [Engine.drips, ih]

theorem Engine.drips_a {e : Engine} (h : e.a = 0) (n : Nat) : (Engine.drips n e).2.a = 0 := by
  induction n generalizing e with
  | zero => exact h
  | succ n ih => exact ih (by simp)

@[simp] theorem Engine.squeeze_length (n : Nat) (e : Engine) : (e.squeeze n).1.length = n := by
  simp [Engine.squeeze]
@[simp] theorem Engine.squeeze_a (n : Nat) (e : Engine) : (e.squeeze n).2.a = 0 :=
  Engine.drips_a (by simp) n

/-- A squeeze cut in two (R129: "a longer output is had by issuing the command again, which
continues the same keystream because `a == 0` after the first"). -/
theorem Engine.squeeze_add (m n : Nat) (e : Engine) :
    e.squeeze (m + n) = ((e.squeeze m).1 ++ ((e.squeeze m).2.squeeze n).1,
      ((e.squeeze m).2.squeeze n).2) := by
  have h := Engine.shuffleIfAbsorbed_eq_self (Engine.squeeze_a m e)
  rw [Engine.squeeze, Engine.drips_add]
  simp only [Engine.squeeze] at h ⊢
  rw [h]

/-! ### the data paths of CS.ENCRYPT and CS.DECRYPT (R155, R156) -/

@[simp] theorem Engine.cipher_length (f : Byte → Byte → Byte) (src : List Byte) (e : Engine) :
    (e.cipher f src).1.length = src.length := by
  induction src generalizing e with
  | nil => rfl
  | cons b src ih => simp [Engine.cipher, ih]

/-- "the data bytes never enter the engine" (R156): the engine after is that of as many drips. -/
theorem Engine.cipher_snd (f : Byte → Byte → Byte) (src : List Byte) (e : Engine) :
    (e.cipher f src).2 = (Engine.drips src.length e).2 := by
  induction src generalizing e with
  | nil => rfl
  | cons b src ih => simp [Engine.cipher, Engine.drips, ih]

/-- The data bytes are combined one by one with the drips. -/
theorem Engine.cipher_fst (f : Byte → Byte → Byte) (src : List Byte) (e : Engine) :
    (e.cipher f src).1 = List.zipWith f src (Engine.drips src.length e).1 := by
  induction src generalizing e with
  | nil => rfl
  | cons b src ih => simp [Engine.cipher, Engine.drips, ih]

/-- A payload cut in two (R155 (3)). -/
theorem Engine.cipher_append (f : Byte → Byte → Byte) (p q : List Byte) (e : Engine) :
    e.cipher f (p ++ q) = ((e.cipher f p).1 ++ ((e.cipher f p).2.cipher f q).1,
      ((e.cipher f p).2.cipher f q).2) := by
  induction p generalizing e with
  | nil => simp [Engine.cipher]
  | cons b p ih => simp [Engine.cipher, ih]

/-- A combine function undone by another undoes the whole payload from the same engine (R159). -/
theorem Engine.cipher_cancel {f g : Byte → Byte → Byte} (h : ∀ b k, g (f b k) k = b)
    (src : List Byte) (e : Engine) : (e.cipher g (e.cipher f src).1).1 = src := by
  induction src generalizing e with
  | nil => rfl
  | cons b src ih => simp [Engine.cipher, ih, h]

/-! ### whole bodies -/

@[simp] theorem Engine.finish_length (r : Nat) (e : Engine) : (e.finish r).1.length = r := by
  simp [Engine.finish]

@[simp] theorem hashEngine_length (r : Nat) (m : List Byte) : (hashEngine r m).1.length = r := by
  simp [hashEngine]
@[simp] theorem macEngine_length (r : Nat) (k m : List Byte) :
    (macEngine r k m).1.length = r := by
  simp [macEngine]

/-! ### properties carried through every body -/

/-- A property of the engine that each elementary change keeps: a shuffle, a nibble or a stop
absorbed below the threshold, an update with its output byte. -/
structure Engine.Closed (P : Engine → Prop) : Prop where
  shuffle : ∀ e, P e → P e.shuffle
  nibble : ∀ e x, e.a ≠ 128 → P e →
    P { e with S := e.S.swap e.a (absorbTarget x), a := e.a + 1 }
  stop : ∀ e, e.a ≠ 128 → P e → P { e with a := e.a + 1 }
  drip : ∀ e z, P e → P { e.update with z := z }

namespace Engine.Closed

variable {P : Engine → Prop} (c : Engine.Closed P)
include c

theorem shuffleIfFull {e : Engine} (h : P e) : P e.shuffleIfFull := by
  unfold Engine.shuffleIfFull
  split
  · exact c.shuffle e h
  · exact h

theorem shuffleIfAbsorbed {e : Engine} (h : P e) : P e.shuffleIfAbsorbed := by
  unfold Engine.shuffleIfAbsorbed
  split
  · exact c.shuffle e h
  · exact h

theorem absorb (bytes : List Byte) {e : Engine} (h : P e) : P (e.absorb bytes) :=
  have nibble : ∀ x e, P e → P (Engine.absorbNibble x e) := fun x e h =>
    c.nibble _ x e.shuffleIfFull_a_ne (c.shuffleIfFull h)
  foldl_induct (P := P) (fun _ _ h => nibble _ _ (nibble _ _ h)) bytes h

theorem absorbStop {e : Engine} (h : P e) : P e.absorbStop :=
  c.stop _ e.shuffleIfFull_a_ne (c.shuffleIfFull h)

theorem oneDrip {e : Engine} (h : P e) : P e.drip.2 := c.drip _ _ (c.shuffleIfAbsorbed h)

theorem drips (n : Nat) {e : Engine} (h : P e) : P (Engine.drips n e).2 := by
  induction n generalizing e with
  | zero => exact h
  | succ n ih => exact ih (c.oneDrip h)

theorem squeeze (n : Nat) {e : Engine} (h : P e) : P (e.squeeze n).2 :=
  c.drips n (c.shuffleIfAbsorbed h)

theorem cipher (f : Byte → Byte → Byte) (src : List Byte) {e : Engine} (h : P e) :
    P (e.cipher f src).2 := by
  rw [Engine.cipher_snd]; exact c.drips _ h

theorem finish (r : Nat) {e : Engine} (h : P e) : P (e.finish r).2 := c.squeeze r (c.absorb _ h)

theorem hashEngine (h : P Engine.initialized) (r : Nat) (m : List Byte) :
    P (Machine.hashEngine r m).2 :=
  c.finish r (c.absorbStop (c.absorb m h))

theorem macEngine (h : P Engine.initialized) (r : Nat) (k m : List Byte) :
    P (Machine.macEngine r k m).2 :=
  c.finish r (c.absorbStop (c.absorb m (c.absorbStop (c.absorb k h))))

theorem keyedEngine (h : P Engine.initialized) (key : List Byte) : P (Machine.keyedEngine key) :=
  c.absorbStop (c.absorb key h)

end Engine.Closed

/-- R24: the table stays a permutation. -/
theorem perm_closed : Engine.Closed fun e => e.S.IsPerm where
  shuffle _ h := Engine.shuffle_perm h
  nibble _ _ _ h := h.swap _ _
  stop _ _ h := h
  drip _ _ h := Engine.update_perm h

/-- R22: `a` stays in 0..128 and `w` odd. -/
theorem inBounds_closed : Engine.Closed Engine.InBounds := by
  have bump : ∀ e : Engine, e.a ≠ 128 → e.InBounds → (e.a + 1).toNat ≤ 128 := fun e hne h => by
    have h1 := h.1
    have : e.a.toNat ≠ 128 := fun h' => hne (BitVec.eq_of_toNat_eq h')
    rw [BitVec.toNat_add]
    simp only [BitVec.ofNat_eq_ofNat, BitVec.toNat_ofNat]
    omega
  refine ⟨fun e h => ⟨by simp, ?_⟩, fun e _ hne h => ⟨bump e hne h, h.2⟩,
    fun e hne h => ⟨bump e hne h, h.2⟩, fun _ _ h => h⟩
  rw [Engine.shuffle_w]
  exact odd_add_even h.2 (by decide)

theorem Engine.initialized_perm : Engine.initialized.S.IsPerm := Table.identity_isPerm

theorem Engine.initialized_inBounds : Engine.initialized.InBounds := ⟨by decide, by decide⟩

/-! ### the nonce (R150) -/

/-- What `noncePrime` can do: the snapshot is restored and the nonce absorbed (R150). -/
theorem noncePrime_some {s t : State} (h : noncePrime s = some t) :
    ∃ e, s.prime = some e ∧ t = { s with pe := e.absorb s.nonce } := by
  unfold noncePrime getPrime at h
  cases hp : s.prime with
  | none => simp [hp] at h
  | some e => exact ⟨e, rfl, by simpa [hp] using h.symm⟩

theorem noncePrime_of_prime {s : State} {e : Engine} (h : s.prime = some e) :
    noncePrime s = some { s with pe := e.absorb s.nonce } := by
  simp [noncePrime, getPrime, h]

theorem getPrime_of_prime {s : State} {e : Engine} (h : s.prime = some e) :
    getPrime s = some { s with pe := e } := by
  simp [getPrime, h]

end Sys2Proof.Machine
end

