-- ==== Sys2Proof/Laws/Backend.lean ====
section
/-! SUPPORT. What each micro-operation of the Alternate Backend can do: lengths, permutations (R27), and that combining twice is no change (R181). -/

namespace Sys2Proof.Machine

theorem abKeyTurn_perm (key : List Byte) {r : Byte × Table} (h : r.2.IsPerm) (v : Nat) :
    (abKeyTurn key r v).2.IsPerm := h.swap _ _

/-- The key schedule writes the identity and swaps only (R27, R170). -/
theorem abKeySchedule_perm (key : List Byte) : (abKeySchedule key).IsPerm :=
  foldl_induct (P := fun r : Byte × Table => r.2.IsPerm) (fun _ v h => abKeyTurn_perm key h v) _
    Table.identity_isPerm

theorem abStep_perm {p : Pass} (h : p.T.IsPerm) : (abStep p).2.T.IsPerm := h.swap _ _

theorem abLoop_perm (src : List Byte) {p : Pass} (h : p.T.IsPerm) : (abLoop src p).2.T.IsPerm := by
  induction src generalizing p with
  | nil => exact h
  | cons b src ih => exact ih (abStep_perm h)

@[simp] theorem abLoop_length (src : List Byte) (p : Pass) :
    (abLoop src p).1.length = src.length := by
  induction src generalizing p with
  | nil => rfl
  | cons b src ih => simp [abLoop, ih]

/-- The table after a pass does not depend on the data, only on how many bytes there are (R174:
"the source bytes and the output bytes do not matter, only the 1536 swaps"). -/
theorem abLoop_snd_congr {src dst : List Byte} (h : src.length = dst.length) (p : Pass) :
    (abLoop src p).2 = (abLoop dst p).2 := by
  induction src generalizing dst p with
  | nil => cases dst with
    | nil => rfl
    | cons _ _ => simp at h
  | cons b src ih => cases dst with
    | nil => simp at h
    | cons c dst => exact ih (by simpa using h) _

theorem xorCombine_cancel (b k : Byte) : xorCombine (xorCombine b k) k = b := by
  simp [xorCombine]

/-- `(p xor ks) xor ks = p` over a whole payload (R181). -/
theorem abLoop_cancel (src : List Byte) (p : Pass) : (abLoop (abLoop src p).1 p).1 = src := by
  induction src generalizing p with
  | nil => rfl
  | cons b src ih => simp [abLoop, ih, xorCombine_cancel]

theorem abPass_perm (seed : Byte × Byte) (src : List Byte) {T : Table} (h : T.IsPerm) :
    (abPass seed src T).2.IsPerm := abLoop_perm src h

@[simp] theorem abPass_length (seed : Byte × Byte) (src : List Byte) (T : Table) :
    (abPass seed src T).1.length = src.length := by simp [abPass]

@[simp] theorem abPass_nil (seed : Byte × Byte) (T : Table) : abPass seed [] T = ([], T) := rfl

theorem abPass_cancel (seed : Byte × Byte) (src : List Byte) (T : Table) :
    (abPass seed (abPass seed src T).1 T).1 = src := abLoop_cancel src _

theorem abPass_snd_congr (seed : Byte × Byte) {src dst : List Byte} (h : src.length = dst.length)
    (T : Table) : (abPass seed src T).2 = (abPass seed dst T).2 := by
  simp [abPass, abLoop_snd_congr h]

theorem abKeyedTable_perm (seed : Byte × Byte) (key : List Byte) :
    (abKeyedTable seed key).IsPerm := abPass_perm _ _ (abKeySchedule_perm key)

end Sys2Proof.Machine
end

