-- ==== Sys2Proof/Laws/Encoding.lean ====
section
/-! SUPPORT. Fields and their bytes (R10, R11): big-endian assembly undoes big-endian layout, and each format's parser undoes its layout. -/

namespace Sys2Proof

@[simp] theorem NonceBytes.seqMod_two : NonceBytes.two.seqMod = 65536 := rfl
@[simp] theorem NonceBytes.seqMod_three : NonceBytes.three.seqMod = 16777216 := rfl
@[simp] theorem NonceBytes.count_two : NonceBytes.two.count = 2 := rfl
@[simp] theorem NonceBytes.count_three : NonceBytes.three.count = 3 := rfl

theorem NonceBytes.seqMod_le (nb : NonceBytes) : nb.seqMod ≤ 2 ^ 24 := by cases nb <;> decide

/-- `be` of `bytes_be` of a 16-bit value. -/
theorem be16_bytes (v : BitVec 16) : be16 (v.extractLsb' 8 8) (v.extractLsb' 0 8) = v := by
  apply BitVec.eq_of_getLsbD_eq
  intro k hk
  simp only [be16, BitVec.getLsbD_append, BitVec.getLsbD_extractLsb']
  by_cases h : k < 8
  · simp [h]
  · have h1 : k - 8 < 8 := by omega
    have h2 : 8 + (k - 8) = k := by omega
    simp [h, h1, h2]

/-- `bytes_be` of `be`. -/
theorem bytes_be16 (b1 b0 : Byte) : bytesBe16 (be16 b1 b0) = [b1, b0] := by
  have h1 : (be16 b1 b0).extractLsb' 8 8 = b1 := by
    apply BitVec.eq_of_getLsbD_eq
    intro k hk
    simp only [be16, BitVec.getLsbD_append, BitVec.getLsbD_extractLsb']
    simp [hk]
  have h0 : (be16 b1 b0).extractLsb' 0 8 = b0 := by
    apply BitVec.eq_of_getLsbD_eq
    intro k hk
    simp only [be16, BitVec.getLsbD_append, BitVec.getLsbD_extractLsb']
    simp [hk]
  simp [bytesBe16, h1, h0]

theorem be24_bytes (v : BitVec 24) :
    be24 (v.extractLsb' 16 8) (v.extractLsb' 8 8) (v.extractLsb' 0 8) = v := by
  apply BitVec.eq_of_getLsbD_eq
  intro k hk
  simp only [be24, BitVec.getLsbD_append, BitVec.getLsbD_extractLsb']
  by_cases h : k < 8
  · simp [h]
  · by_cases h' : k < 16
    · have h1 : k - 8 < 8 := by omega
      have h2 : 8 + (k - 8) = k := by omega
      simp [h, h1, h2]
    · have h1 : ¬ k - 8 < 8 := by omega
      have h2 : k - 8 - 8 < 8 := by omega
      have h3 : 16 + (k - 8 - 8) = k := by omega
      simp [h, h1, h2, h3]

theorem be24_low (b2 b1 b0 : Byte) : (be24 b2 b1 b0).extractLsb' 0 8 = b0 := by
  apply BitVec.eq_of_getLsbD_eq
  intro k hk
  simp only [be24, BitVec.getLsbD_append, BitVec.getLsbD_extractLsb']
  simp [hk]

theorem be24_mid (b2 b1 b0 : Byte) : (be24 b2 b1 b0).extractLsb' 8 8 = b1 := by
  apply BitVec.eq_of_getLsbD_eq
  intro k hk
  have h : ¬ 8 + k < 8 := by omega
  have h' : 8 + k - 8 = k := by omega
  simp only [be24, BitVec.getLsbD_append, BitVec.getLsbD_extractLsb', h, h', hk]
  simp [hk]

theorem be24_high (b2 b1 b0 : Byte) : (be24 b2 b1 b0).extractLsb' 16 8 = b2 := by
  apply BitVec.eq_of_getLsbD_eq
  intro k hk
  have h : ¬ 16 + k < 8 := by omega
  have h' : 16 + k - 8 - 8 = k := by omega
  have h'' : ¬ 16 + k - 8 < 8 := by omega
  simp only [be24, BitVec.getLsbD_append, BitVec.getLsbD_extractLsb', h, h', h'', hk]
  simp

/-- The nonce bytes of a value in range read back (R54, R83). -/
theorem seqOfBytes_seqBytes (nb : NonceBytes) (v : BitVec 24) (h : v.toNat < nb.seqMod) :
    seqOfBytes nb (seqBytes nb v) = some v := by
  cases nb with
  | three => simp [seqOfBytes, seqBytes, be24_bytes]
  | two =>
    have hz : v.extractLsb' 16 8 = 0 := by
      apply BitVec.eq_of_toNat_eq
      simp only [BitVec.extractLsb'_toNat, Nat.shiftRight_eq_div_pow]
      simp only [NonceBytes.seqMod_two] at h
      simp [Nat.div_eq_of_lt h]
    have := be24_bytes v
    rw [hz] at this
    simp only [seqOfBytes, seqBytes, this]

/-- Bytes that assemble to a sequence number are that number's bytes, and it is in range. -/
theorem seqBytes_seqOfBytes {nb : NonceBytes} {bs : List Byte} {v : BitVec 24}
    (h : seqOfBytes nb bs = some v) : seqBytes nb v = bs ∧ v.toNat < nb.seqMod := by
  unfold seqOfBytes at h
  split at h
  · cases h
    rename_i b1 b0
    refine ⟨by simp [seqBytes, be24_mid, be24_low], ?_⟩
    have hz : (be24 0 b1 b0).toNat / 65536 % 256 = 0 := by
      simpa [BitVec.extractLsb'_toNat, Nat.shiftRight_eq_div_pow] using
        congrArg BitVec.toNat (be24_high 0 b1 b0)
    have hlt := (be24 0 b1 b0).isLt
    rw [NonceBytes.seqMod_two]
    omega
  · cases h
    rename_i b2 b1 b0
    exact ⟨by simp [seqBytes, be24_mid, be24_low, be24_high], (be24 b2 b1 b0).isLt⟩
  · cases h

theorem seqBytes_length (nb : NonceBytes) (v : BitVec 24) : (seqBytes nb v).length = nb.count := by
  cases nb <;> rfl

/-- Format M reads back its layout when `KLEN` can say the key's length (R81). -/
theorem parseM_layout (f : BitVec 16 → List Byte → List Byte → Instr) (o : BitVec 16)
    (key message : List Byte) (h : key.length < 65536) :
    parseM f (bytesBe16 o ++ bytesBe16 (BitVec.ofNat 16 key.length) ++ key ++ message) =
      .ok (f o key message) := by
  have hk : (BitVec.ofNat 16 key.length).toNat = key.length := by
    rw [BitVec.toNat_ofNat, Nat.mod_eq_of_lt h]
  simp only [bytesBe16, List.cons_append, List.nil_append, parseM, be16_bytes, hk]
  simp

/-- The number of two bytes (R11) is what the fields of the formats hold. -/
theorem be16_toNat (a b : Byte) : (be16 a b).toNat = 256 * a.toNat + b.toNat := by
  have := b.isLt
  rw [be16, BitVec.toNat_append, ← Nat.shiftLeft_add_eq_or_of_lt this, Nat.shiftLeft_eq]
  omega

/-- What each format's parser refuses (R82), by the number of bytes `L`. -/
theorem parseN_error (i : Instr) (r : List Byte) (e : Error) :
    parseN i r = .error e ↔ e = .malformedCommand ∧ r.length + 1 ≠ 1 := by
  cases r <;> simp [parseN, eq_comm]
theorem parseP_error (f : List Byte → Instr) (r : List Byte) (e : Error) :
    parseP f r ≠ .error e := by simp [parseP]
theorem parseC_error (f : BitVec 16 → Instr) (r : List Byte) (e : Error) :
    parseC f r = .error e ↔ e = .malformedCommand ∧ r.length + 1 ≠ 3 := by
  rcases r with _ | ⟨a, _ | ⟨b, _ | ⟨c, r⟩⟩⟩ <;> simp [parseC, eq_comm]
theorem parseH_error (f : BitVec 16 → List Byte → Instr) (r : List Byte) (e : Error) :
    parseH f r = .error e ↔ e = .malformedCommand ∧ r.length + 1 < 3 := by
  rcases r with _ | ⟨a, _ | ⟨b, r⟩⟩ <;> simp [parseH, eq_comm]
theorem parseQ_error (nb : NonceBytes) (f : BitVec 24 → Instr) (r : List Byte) (e : Error) :
    parseQ nb f r = .error e ↔ e = .malformedCommand ∧ r.length + 1 ≠ 1 + nb.count := by
  cases nb <;> rcases r with _ | ⟨a, _ | ⟨b, _ | ⟨c, _ | ⟨d, r⟩⟩⟩⟩ <;>
    simp [parseQ, seqOfBytes, eq_comm]
theorem parseR_error (f : BitVec 16 → Byte → Instr) (r : List Byte) (e : Error) :
    parseR f r = .error e ↔ e = .malformedCommand ∧ r.length + 1 ≠ 4 := by
  rcases r with _ | ⟨a, _ | ⟨b, _ | ⟨c, _ | ⟨d, r⟩⟩⟩⟩ <;> simp [parseR, eq_comm]

end Sys2Proof
end

