-- ==== Sys2Proof/Laws/Counters.lean ====
section
/-! SUPPORT. The counters as numbers (R13 (e)) and their big-endian bytes (R54). -/

namespace Sys2Proof.Machine

theorem seqMod_pos (nb : NonceBytes) : 0 < nb.seqMod := by cases nb <;> decide

/-- A number reduced modulo `SEQ_MOD` fits the 24 bits that hold `SEQ`. -/
theorem toNat_ofNat_seqMod (nb : NonceBytes) (v : Nat) :
    (BitVec.ofNat 24 (v % nb.seqMod)).toNat = v % nb.seqMod := by
  have := nb.seqMod_le
  have := Nat.mod_lt v (seqMod_pos nb)
  rw [BitVec.toNat_ofNat, Nat.mod_eq_of_lt (by omega)]

theorem seqSucc_toNat (nb : NonceBytes) (v : BitVec 24) :
    (seqSucc nb v).toNat = (v.toNat + 1) % nb.seqMod := toNat_ofNat_seqMod _ _

theorem seqSucc_lt (nb : NonceBytes) (v : BitVec 24) : (seqSucc nb v).toNat < nb.seqMod := by
  rw [seqSucc_toNat]; exact Nat.mod_lt _ (seqMod_pos nb)

theorem truncSeq_lt (nb : NonceBytes) (v : BitVec 24) : (truncSeq nb v).toNat < nb.seqMod := by
  rw [truncSeq, toNat_ofNat_seqMod]; exact Nat.mod_lt _ (seqMod_pos nb)

/-- A value in range is written as it is. -/
theorem truncSeq_of_lt {nb : NonceBytes} {v : BitVec 24} (h : v.toNat < nb.seqMod) :
    truncSeq nb v = v := by
  apply BitVec.eq_of_toNat_eq
  rw [truncSeq, toNat_ofNat_seqMod, Nat.mod_eq_of_lt h]

/-- `NONCE_BYTES` bytes assemble to the number they are (R11, R152). -/
theorem seqOfBytes_of_length {nb : NonceBytes} {bytes : List Byte} (h : bytes.length = nb.count) :
    ∃ v, seqOfBytes nb bytes = some v ∧ v.toNat = beNat bytes := by
  cases nb
  · rcases bytes with _ | ⟨a, _ | ⟨b, _ | ⟨c, r⟩⟩⟩ <;> simp at h
    refine ⟨_, rfl, ?_⟩
    have := b.isLt
    simp only [be24, BitVec.toNat_append]
    rw [← Nat.shiftLeft_add_eq_or_of_lt this, Nat.shiftLeft_eq]
    simp [beNat]
    omega
  · rcases bytes with _ | ⟨a, _ | ⟨b, _ | ⟨c, _ | ⟨d, r⟩⟩⟩⟩ <;> simp at h
    refine ⟨_, rfl, ?_⟩
    have hb := b.isLt
    have hc := c.isLt
    simp only [be24, BitVec.toNat_append]
    rw [← Nat.shiftLeft_add_eq_or_of_lt hc, Nat.shiftLeft_eq, ← Nat.shiftLeft_add_eq_or_of_lt hb,
      Nat.shiftLeft_eq]
    simp [beNat]
    omega

/-- The nonce of a value in range is its big-endian bytes (R54). -/
theorem beNat_seqBytes {nb : NonceBytes} {v : BitVec 24} (h : v.toNat < nb.seqMod) :
    beNat (seqBytes nb v) = v.toNat := by
  obtain ⟨w, hw, hv⟩ := seqOfBytes_of_length (seqBytes_length nb v)
  rw [seqOfBytes_seqBytes nb v h] at hw
  cases hw
  exact hv.symm

theorem beNat_pair (a b : Byte) : beNat [a, b] = (be16 a b).toNat := by
  rw [be16_toNat]; simp [beNat]

/-- The two bytes of `ASEQ` are its big-endian bytes (R84). -/
theorem beNat_bytesBe16 (v : BitVec 16) : beNat (bytesBe16 v) = v.toNat := by
  rw [bytesBe16, beNat_pair, be16_bytes]

end Sys2Proof.Machine
end

