-- ==== Sys2Proof/Laws/Exec.lean ====
section
/-! SUPPORT. What one command can do, said once: it raises an error, it holds, or it has its effect and answers (R61, R204, R212). -/

namespace Sys2Proof.Machine

/-- The effect of a command that succeeds: the data it answers with and the state it leaves, before
the answer is put on the response port. -/
def Effect : Instr → State → List Byte → State → Prop
  | .peInit, s, d, u => d = [] ∧ u = { s with pe := Engine.initialized }
  | .peAbsorb p, s, d, u => d = [] ∧ u = { s with pe := s.pe.absorb p }
  | .peAbsorbStop, s, d, u => d = [] ∧ u = { s with pe := s.pe.absorbStop }
  | .peShuffle, s, d, u => d = [] ∧ u = { s with pe := s.pe.shuffle }
  | .peDrip, s, d, u => d = [s.pe.drip.1] ∧ u = { s with pe := s.pe.drip.2 }
  | .peSqueeze n, s, d, u =>
    d = (s.pe.squeeze n.toNat).1 ∧ u = { s with pe := (s.pe.squeeze n.toNat).2 }
  | .peSetPrime, s, d, u => d = [] ∧ u = setPrimeValid (setPrime s)
  | .peGetPrime, s, d, u =>
    s.primeValid = true ∧ ∃ e, s.prime = some e ∧ d = [] ∧ u = { s with pe := e }
  | .peHash n m, s, d, u => d = (hashEngine (clampOutLen n) m).1 ∧
    u = { s with pe := (hashEngine (clampOutLen n) m).2 }
  | .peMac n k m, s, d, u => d = (macEngine (clampOutLen n) k m).1 ∧
    u = { s with pe := (macEngine (clampOutLen n) k m).2 }
  | .csSetKey k, s, d, u => k.length = csKeyBytes ∧ d = [] ∧
    u = setPrimeValid (setCsKeyed (setPrime { s with pe := keyedEngine k }))
  | .csNewSeq, s, d, u => s.csKeyed = true ∧ s.nonceBytes.count ≤ s.rng.length ∧ d = [] ∧
    noncePrime { s with
      rng := s.rng.drop s.nonceBytes.count
      seq := (seqOfBytes s.nonceBytes (s.rng.take s.nonceBytes.count)).getD 0 } = some u
  | .csNewSend, s, d, u => s.csKeyed = true ∧ d = u.nonce ∧
    noncePrime { s with seq := seqSucc s.nonceBytes s.seq } = some u
  | .csNewRecv n, s, d, u => s.csKeyed = true ∧ d = [] ∧
    noncePrime { s with seq := truncSeq s.nonceBytes n } = some u
  | .csEncrypt m, s, d, u => s.csKeyed = true ∧ d = (s.pe.cipher addCombine m).1 ∧
    u = { s with pe := (s.pe.cipher addCombine m).2 }
  | .csDecrypt m, s, d, u => s.csKeyed = true ∧ d = (s.pe.cipher subCombine m).1 ∧
    u = { s with pe := (s.pe.cipher subCombine m).2 }
  | .csRdSeq, s, d, u => d = s.nonce ∧ u = s
  | .abSetKey k, s, d, u => k.length = abKeyBytes ∧ d = [] ∧
    u = setAbKeyed { s with
      T := some (abKeyedTable s.abSeed k), PT := some (abKeyedTable s.abSeed k) }
  | .abNewSeq, s, d, u => s.abKeyed = true ∧ 3 ≤ s.rng.length ∧ d = [] ∧
    u = { s with
      rng := s.rng.drop 3
      aseq := be16 ((s.rng.take 3).getD 0 0) ((s.rng.take 3).getD 1 0)
      roll := (s.rng.take 3).getD 2 0 }
  | .abNewSend, s, d, u => s.abKeyed = true ∧ ∃ PT, s.PT = some PT ∧ d = u.abCounters ∧
    u = bumpAbCounters { s with T := some PT }
  | .abNewRecv n r, s, d, u => s.abKeyed = true ∧ ∃ PT, s.PT = some PT ∧ d = [] ∧
    u = { s with T := some PT, aseq := n, roll := r }
  | .abCombine m, s, d, u => s.abKeyed = true ∧ ∃ T, s.T = some T ∧ d = (abPass s.abSeed m T).1 ∧
    u = { s with T := some (abPass s.abSeed m T).2 }
  | .abRdSeq, s, d, u => d = s.abCounters ∧ u = s
  | .sysRdStat, s, d, u => d = [s.flags, s.err, s.config] ∧ u = s

/-- What the effect of a command never touches. -/
theorem effect_frame {i : Instr} {s u : State} {d : List Byte} (h : Effect i s d u) :
    u.responses = s.responses ∧ u.err = s.err ∧ u.nonceBytes = s.nonceBytes ∧
      u.commands = s.commands := by
  cases i <;> simp only [Effect] at h
  case csNewSeq => obtain ⟨_, _, _, h⟩ := h; obtain ⟨e, _, rfl⟩ := noncePrime_some h; simp
  case csNewSend => obtain ⟨_, _, h⟩ := h; obtain ⟨e, _, rfl⟩ := noncePrime_some h; simp
  case csNewRecv => obtain ⟨_, _, h⟩ := h; obtain ⟨e, _, rfl⟩ := noncePrime_some h; simp
  case peGetPrime => obtain ⟨_, _, _, _, rfl⟩ := h; simp
  case abNewSend => obtain ⟨_, _, _, _, rfl⟩ := h; simp [bumpAbCounters]
  case abNewRecv => obtain ⟨_, _, _, _, rfl⟩ := h; simp
  case abCombine => obtain ⟨_, _, _, _, rfl⟩ := h; simp
  case csSetKey => obtain ⟨_, _, rfl⟩ := h; simp
  case abSetKey => obtain ⟨_, _, rfl⟩ := h; simp
  case abNewSeq => obtain ⟨_, _, _, rfl⟩ := h; simp
  case csEncrypt => obtain ⟨_, _, rfl⟩ := h; simp
  case csDecrypt => obtain ⟨_, _, rfl⟩ := h; simp
  all_goals obtain ⟨_, rfl⟩ := h; simp

/-- No error code is the success status (R61, R200). -/
theorem code_ne_zero (e : Error) : e.code ≠ 0 := by cases e <;> decide

theorem takeRng_eq (n : Nat) (s : State) :
    takeRng n s = if n ≤ s.rng.length then some (s.rng.take n, { s with rng := s.rng.drop n })
      else none := rfl

/-- Everything a command that answers `next` can have done. -/
theorem exec_cases {i : Instr} {s t : State} (h : exec i s = .next t) :
    (∃ e, t = raise e s) ∨ (∃ k : Held, i = k.instr ∧ t = hold k s) ∨
      ∃ d u, Effect i s d u ∧ t = respond d u := by
  cases i
  case peInit => cases h; exact .inr (.inr ⟨_, _, ⟨rfl, rfl⟩, rfl⟩)
  case peAbsorb p => cases h; exact .inr (.inr ⟨_, _, ⟨rfl, rfl⟩, rfl⟩)
  case peAbsorbStop => cases h; exact .inr (.inr ⟨_, _, ⟨rfl, rfl⟩, rfl⟩)
  case peShuffle => cases h; exact .inr (.inr ⟨_, _, ⟨rfl, rfl⟩, rfl⟩)
  case peDrip => cases h; exact .inr (.inr ⟨_, _, ⟨rfl, rfl⟩, rfl⟩)
  case peSqueeze n => cases h; exact .inr (.inr ⟨_, _, ⟨rfl, rfl⟩, rfl⟩)
  case peSetPrime => cases h; exact .inr (.inr ⟨_, _, ⟨rfl, rfl⟩, rfl⟩)
  case peGetPrime =>
    simp only [exec, execPeGetPrime] at h
    split at h
    · cases h; exact .inl ⟨_, rfl⟩
    · rename_i hf
      cases hp : s.prime with
      | none => simp [getPrime, hp] at h
      | some e =>
        simp only [getPrime_of_prime hp] at h
        cases h
        exact .inr (.inr ⟨_, _, ⟨by simpa using hf, e, hp, rfl, rfl⟩, rfl⟩)
  case peHash n m => cases h; exact .inr (.inr ⟨_, _, ⟨rfl, rfl⟩, rfl⟩)
  case peMac n k m => cases h; exact .inr (.inr ⟨_, _, ⟨rfl, rfl⟩, rfl⟩)
  case csSetKey k =>
    simp only [exec, execCsSetKey] at h
    split at h
    · cases h; exact .inl ⟨_, rfl⟩
    · rename_i hk
      cases h
      exact .inr (.inr ⟨_, _, ⟨by simpa using hk, rfl, rfl⟩, rfl⟩)
  case csNewSeq =>
    simp only [exec, execCsNewSeq, takeRng_eq] at h
    split at h
    · cases h; exact .inl ⟨_, rfl⟩
    · rename_i hf
      by_cases hr : s.nonceBytes.count ≤ s.rng.length
      · simp only [hr, if_true] at h
        split at h
        · cases h
        · rename_i u hu
          cases h
          exact .inr (.inr ⟨_, u, ⟨by simpa using hf, hr, rfl, hu⟩, rfl⟩)
      · simp only [hr, if_false] at h
        cases h
        exact .inr (.inl ⟨.csNewSeq, rfl, rfl⟩)
  case csNewSend =>
    simp only [exec, execCsNewSend] at h
    split at h
    · cases h; exact .inl ⟨_, rfl⟩
    · rename_i hf
      split at h
      · cases h
      · rename_i u hu
        cases h
        exact .inr (.inr ⟨_, u, ⟨by simpa using hf, rfl, hu⟩, rfl⟩)
  case csNewRecv n =>
    simp only [exec, execCsNewRecv] at h
    split at h
    · cases h; exact .inl ⟨_, rfl⟩
    · rename_i hf
      split at h
      · cases h
      · rename_i u hu
        cases h
        exact .inr (.inr ⟨_, u, ⟨by simpa using hf, rfl, hu⟩, rfl⟩)
  case csEncrypt m =>
    simp only [exec, execCsEncrypt] at h
    split at h
    · cases h; exact .inl ⟨_, rfl⟩
    · rename_i hf
      cases h
      exact .inr (.inr ⟨_, _, ⟨by simpa using hf, rfl, rfl⟩, rfl⟩)
  case csDecrypt m =>
    simp only [exec, execCsDecrypt] at h
    split at h
    · cases h; exact .inl ⟨_, rfl⟩
    · rename_i hf
      cases h
      exact .inr (.inr ⟨_, _, ⟨by simpa using hf, rfl, rfl⟩, rfl⟩)
  case csRdSeq => cases h; exact .inr (.inr ⟨_, _, ⟨rfl, rfl⟩, rfl⟩)
  case abSetKey k =>
    simp only [exec, execAbSetKey] at h
    split at h
    · cases h; exact .inl ⟨_, rfl⟩
    · rename_i hk
      cases h
      exact .inr (.inr ⟨_, _, ⟨by simpa using hk, rfl, rfl⟩, rfl⟩)
  case abNewSeq =>
    simp only [exec, execAbNewSeq, takeRng_eq] at h
    split at h
    · cases h; exact .inl ⟨_, rfl⟩
    · rename_i hf
      by_cases hr : 3 ≤ s.rng.length
      · simp only [hr, if_true] at h
        cases h
        exact .inr (.inr ⟨_, _, ⟨by simpa using hf, hr, rfl, rfl⟩, rfl⟩)
      · simp only [hr, if_false] at h
        cases h
        exact .inr (.inl ⟨.abNewSeq, rfl, rfl⟩)
  case abNewSend =>
    simp only [exec, execAbNewSend] at h
    split at h
    · cases h; exact .inl ⟨_, rfl⟩
    · rename_i hf
      split at h
      · cases h
      · rename_i PT hp
        cases h
        exact .inr (.inr ⟨_, _, ⟨by simpa using hf, PT, hp, rfl, rfl⟩, rfl⟩)
  case abNewRecv n r =>
    simp only [exec, execAbNewRecv] at h
    split at h
    · cases h; exact .inl ⟨_, rfl⟩
    · rename_i hf
      split at h
      · cases h
      · rename_i PT hp
        cases h
        exact .inr (.inr ⟨_, _, ⟨by simpa using hf, PT, hp, rfl, rfl⟩, rfl⟩)
  case abCombine m =>
    simp only [exec, execAbCombine] at h
    split at h
    · cases h; exact .inl ⟨_, rfl⟩
    · rename_i hf
      split at h
      · cases h
      · rename_i T hT
        cases h
        exact .inr (.inr ⟨_, _, ⟨by simpa using hf, T, hT, rfl, rfl⟩, rfl⟩)
  case abRdSeq => cases h; exact .inr (.inr ⟨_, _, ⟨rfl, rfl⟩, rfl⟩)
  case sysRdStat => cases h; exact .inr (.inr ⟨_, _, ⟨rfl, rfl⟩, rfl⟩)

/-- No command is refused. -/
theorem exec_not_refused (i : Instr) (s : State) (r : Refusal) : exec i s ≠ .refused r := by
  cases i <;> simp only [exec, execPeInit, execPeAbsorb, execPeAbsorbStop, execPeShuffle, execPeDrip,
    execPeSqueeze, execPeSetPrime, execPeGetPrime, execPeHash, execPeMac, execCsSetKey, execCsNewSeq,
    execCsNewSend, execCsNewRecv, execCsEncrypt, execCsDecrypt, execCsRdSeq, execAbSetKey,
    execAbNewSeq, execAbNewSend, execAbNewRecv, execAbCombine, execAbRdSeq, execSysRdStat] <;>
    repeat' (first | (intro h; cases h) | split)

theorem noncePrime_none {s : State} (h : noncePrime s = none) : s.prime = none := by
  cases hp : s.prime with
  | none => rfl
  | some e => simp [noncePrime_of_prime hp] at h

theorem getPrime_none {s : State} (h : getPrime s = none) : s.prime = none := by
  cases hp : s.prime with
  | none => rfl
  | some e => simp [getPrime_of_prime hp] at h

/-- What it takes to fault: a flag that is set over a value that is absent (R35). -/
theorem exec_faults {i : Instr} {s : State} {f : Fault} (h : exec i s = .fault f) :
    (s.prime = none ∧ (s.primeValid = true ∨ s.csKeyed = true)) ∨
      (s.abKeyed = true ∧ (s.T = none ∨ s.PT = none)) := by
  cases i <;> simp only [exec, execPeInit, execPeAbsorb, execPeAbsorbStop, execPeShuffle, execPeDrip,
    execPeSqueeze, execPeSetPrime, execPeGetPrime, execPeHash, execPeMac, execCsSetKey, execCsNewSeq,
    execCsNewSend, execCsNewRecv, execCsEncrypt, execCsDecrypt, execCsRdSeq, execAbSetKey,
    execAbNewSeq, execAbNewSend, execAbNewRecv, execAbCombine, execAbRdSeq, execSysRdStat,
    takeRng_eq, reduceCtorEq] at h
  case csSetKey => split at h <;> cases h
  case abSetKey => split at h <;> cases h
  case csEncrypt => split at h <;> cases h
  case csDecrypt => split at h <;> cases h
  case peGetPrime =>
    split at h
    · cases h
    · rename_i hf
      split at h
      · rename_i hp
        exact .inl ⟨getPrime_none hp, .inl (by simpa using hf)⟩
      · cases h
  case csNewSeq =>
    split at h
    · cases h
    · rename_i hf
      split at h
      · cases h
      · rename_i bytes t ht
        split at h
        · rename_i hp
          have hp := noncePrime_none hp
          split at ht
          · cases ht; exact .inl ⟨hp, .inr (by simpa using hf)⟩
          · cases ht
        · cases h
  case csNewSend =>
    split at h
    · cases h
    · rename_i hf
      split at h
      · rename_i hp
        exact .inl ⟨by simpa using noncePrime_none hp, .inr (by simpa using hf)⟩
      · cases h
  case csNewRecv n =>
    split at h
    · cases h
    · rename_i hf
      split at h
      · rename_i hp
        exact .inl ⟨by simpa using noncePrime_none hp, .inr (by simpa using hf)⟩
      · cases h
  case abNewSeq =>
    split at h
    · cases h
    · split at h <;> cases h
  case abNewSend =>
    split at h
    · cases h
    · rename_i hf
      split at h
      · rename_i hp
        exact .inr ⟨by simpa using hf, .inr hp⟩
      · cases h
  case abNewRecv n r =>
    split at h
    · cases h
    · rename_i hf
      split at h
      · rename_i hp
        exact .inr ⟨by simpa using hf, .inr hp⟩
      · cases h
  case abCombine m =>
    split at h
    · cases h
    · rename_i hf
      split at h
      · rename_i hp
        exact .inr ⟨by simpa using hf, .inl hp⟩
      · cases h

/-- Everything a step that answers `next` can have done (R68, R86, R212, R220). -/
theorem step_cases {s t : State} (h : step s = .next t) :
    (∃ k, s.held = some k ∧ exec k.instr s = .next t) ∨
      (s.held = none ∧ s.commands = [] ∧ t = s) ∨
      ∃ p rest, s.held = none ∧ s.commands = p :: rest ∧
        ((∃ i, decode s.nonceBytes p = .ok i ∧ exec i { s with commands := rest } = .next t) ∨
          ∃ e, decode s.nonceBytes p = .error e ∧ t = raise e { s with commands := rest }) := by
  unfold step at h
  cases hh : s.held with
  | some k => exact .inl ⟨k, rfl, by simpa [hh] using h⟩
  | none =>
    simp only [hh, takeCommand] at h
    cases hc : s.commands with
    | nil => simp only [hc] at h; cases h; exact .inr (.inl ⟨rfl, rfl, rfl⟩)
    | cons p rest =>
      simp only [hc] at h
      refine .inr (.inr ⟨p, rest, rfl, rfl, ?_⟩)
      cases hd : decode s.nonceBytes p with
      | ok i => exact .inl ⟨i, rfl, by simpa [hd] using h⟩
      | error e => simp only [hd] at h; cases h; exact .inr ⟨e, rfl, rfl⟩

/-- What a step keeps: a property of the state that taking a packet, answering, logging an error,
holding and every effect keep. -/
theorem step_keeps {P : State → Prop}
    (take : ∀ s l, P s → P { s with commands := l })
    (ans : ∀ s l, P s → P { s with responses := l, held := none })
    (log : ∀ s e, P s → P (logError e s))
    (wait : ∀ s k, P s → P { s with held := some k })
    (eff : ∀ i s d u, P s → Effect i s d u → P u)
    {s t : State} (hs : P s) (h : step s = .next t) : P t := by
  have main : ∀ {i : Instr} {q : State}, P q → exec i q = .next t → P t := by
    intro i q hq hx
    rcases exec_cases hx with ⟨e, rfl⟩ | ⟨k, -, rfl⟩ | ⟨d, u, he, rfl⟩
    · exact ans _ _ (log _ _ hq)
    · exact wait _ _ hq
    · exact ans _ _ (eff _ _ _ _ hq he)
  rcases step_cases h with ⟨k, -, hx⟩ | ⟨-, -, rfl⟩ | ⟨p, rest, -, -, ⟨i, -, hx⟩ | ⟨e, -, rfl⟩⟩
  · exact main hs hx
  · exact hs
  · exact main (take _ _ hs) hx
  · exact ans _ _ (log _ _ (take _ _ hs))

end Sys2Proof.Machine
end

