-- ==== Sys2Proof/Laws/PerInstr.lean ====
section
/-! SUPPORT. Said of every command: how long its packet is (R81). -/

namespace Sys2Proof.Laws

/-- The packet length `L` of a command, by its format (R81). -/
def packetLength (nb : NonceBytes) : Instr → Nat
  | .peInit => 1
  | .peAbsorb p => 1 + p.length
  | .peAbsorbStop => 1
  | .peShuffle => 1
  | .peDrip => 1
  | .peSqueeze _ => 3
  | .peSetPrime => 1
  | .peGetPrime => 1
  | .peHash _ m => 3 + m.length
  | .peMac _ k m => 5 + k.length + m.length
  | .csSetKey k => 1 + k.length
  | .csNewSeq => 1
  | .csNewSend => 1
  | .csNewRecv _ => 1 + nb.count
  | .csEncrypt m => 1 + m.length
  | .csDecrypt m => 1 + m.length
  | .csRdSeq => 1
  | .abSetKey k => 1 + k.length
  | .abNewSeq => 1
  | .abNewSend => 1
  | .abNewRecv _ _ => 4
  | .abCombine m => 1 + m.length
  | .abRdSeq => 1
  | .sysRdStat => 1

/-- The encoder gives a command a packet of the length its format says (R81). -/
def PacketLength.Statement (i : Instr) : Prop :=
  ∀ nb : NonceBytes, (encode nb i).bytes.length = packetLength nb i

open PacketLength

theorem PacketLength.peInit : Statement .peInit := fun _ => rfl
theorem PacketLength.peAbsorb (payload : List Byte) : Statement (.peAbsorb payload) := fun _ =>
  Nat.add_comm _ _
theorem PacketLength.peAbsorbStop : Statement .peAbsorbStop := fun _ => rfl
theorem PacketLength.peShuffle : Statement .peShuffle := fun _ => rfl
theorem PacketLength.peDrip : Statement .peDrip := fun _ => rfl
theorem PacketLength.peSqueeze (cnt : BitVec 16) : Statement (.peSqueeze cnt) := fun _ => rfl
theorem PacketLength.peSetPrime : Statement .peSetPrime := fun _ => rfl
theorem PacketLength.peGetPrime : Statement .peGetPrime := fun _ => rfl
theorem PacketLength.peHash (outLen : BitVec 16) (message : List Byte) :
    Statement (.peHash outLen message) := fun _ => by
  simp [encode, Instr.operandBytes, Packet.bytes, packetLength, bytesBe16]; omega
theorem PacketLength.peMac (outLen : BitVec 16) (key message : List Byte) :
    Statement (.peMac outLen key message) := fun _ => by
  simp [encode, Instr.operandBytes, Packet.bytes, packetLength, bytesBe16]; omega
theorem PacketLength.csSetKey (key : List Byte) : Statement (.csSetKey key) := fun _ =>
  Nat.add_comm _ _
theorem PacketLength.csNewSeq : Statement .csNewSeq := fun _ => rfl
theorem PacketLength.csNewSend : Statement .csNewSend := fun _ => rfl
theorem PacketLength.csNewRecv (seq : BitVec 24) : Statement (.csNewRecv seq) := fun nb => by
  simp [encode, Instr.operandBytes, Packet.bytes, packetLength, seqBytes_length]; omega
theorem PacketLength.csEncrypt (src : List Byte) : Statement (.csEncrypt src) := fun _ =>
  Nat.add_comm _ _
theorem PacketLength.csDecrypt (src : List Byte) : Statement (.csDecrypt src) := fun _ =>
  Nat.add_comm _ _
theorem PacketLength.csRdSeq : Statement .csRdSeq := fun _ => rfl
theorem PacketLength.abSetKey (key : List Byte) : Statement (.abSetKey key) := fun _ =>
  Nat.add_comm _ _
theorem PacketLength.abNewSeq : Statement .abNewSeq := fun _ => rfl
theorem PacketLength.abNewSend : Statement .abNewSend := fun _ => rfl
theorem PacketLength.abNewRecv (aseq : BitVec 16) (roll : Byte) :
    Statement (.abNewRecv aseq roll) := fun _ => rfl
theorem PacketLength.abCombine (src : List Byte) : Statement (.abCombine src) := fun _ =>
  Nat.add_comm _ _
theorem PacketLength.abRdSeq : Statement .abRdSeq := fun _ => rfl
theorem PacketLength.sysRdStat : Statement .sysRdStat := fun _ => rfl

end Sys2Proof.Laws
end

