-- ==== Sys2Proof/Laws/Ready.lean ====
section
/-! SUPPORT. What each command that checks a flag, a key length, a snapshot or the RNG port does when the check passes: one equation a command, which proofs cite instead of unfolding its meaning. -/

namespace Sys2Proof.Machine

theorem csKeyed_of {s : State} (h : s.flags.getLsbD 0 = true) : ¬ s.csKeyed = false := by
  simp [State.csKeyed, h]
theorem abKeyed_of {s : State} (h : s.flags.getLsbD 1 = true) : ¬ s.abKeyed = false := by
  simp [State.abKeyed, h]
theorem primeValid_of {s : State} (h : s.flags.getLsbD 2 = true) : ¬ s.primeValid = false := by
  simp [State.primeValid, h]

theorem peGetPrime_ready {s : State} {e : Engine} (h : s.flags.getLsbD 2 = true)
    (hp : s.prime = some e) : exec .peGetPrime s = .next (respond [] { s with pe := e }) := by
  simp only [exec, execPeGetPrime, if_neg (primeValid_of h), getPrime_of_prime hp]

theorem csSetKey_ready {s : State} {key : List Byte} (h : key.length = 16) :
    exec (.csSetKey key) s = .next (respond [] { s with
      pe := keyedEngine key, prime := some (keyedEngine key), flags := s.flags ||| 0x05 }) := by
  have hk : ¬ key.length ≠ csKeyBytes := by simp [csKeyBytes, h]
  simp only [exec, execCsSetKey, if_neg hk]
  simp [respond, answer, setPrime, setPrimeValid, setCsKeyed, BitVec.or_assoc]

theorem csNewSeq_ready {s : State} {e : Engine} (h : s.flags.getLsbD 0 = true)
    (hp : s.prime = some e) {bytes rest : List Byte} {v : BitVec 24}
    (hr : s.rng = bytes ++ rest) (hv : seqOfBytes s.nonceBytes bytes = some v) :
    exec .csNewSeq s = .next (respond [] { s with
      pe := e.absorb bytes, seq := v, rng := rest }) := by
  have hs := (seqBytes_seqOfBytes hv).1
  have hl : bytes.length = s.nonceBytes.count := by rw [← hs, seqBytes_length]
  have hle : s.nonceBytes.count ≤ s.rng.length := by rw [hr, List.length_append, hl]; omega
  have ht : s.rng.take s.nonceBytes.count = bytes := by rw [hr, ← hl]; simp
  have hd : s.rng.drop s.nonceBytes.count = rest := by rw [hr, ← hl]; simp
  simp only [exec, execCsNewSeq, if_neg (csKeyed_of h), takeRng_eq, if_pos hle, ht, hd, hv,
    Option.getD_some, noncePrime, getPrime, hp, State.nonce, hs]

theorem csNewSeq_short {s : State} (h : s.flags.getLsbD 0 = true)
    (hr : s.rng.length < s.nonceBytes.count) :
    exec .csNewSeq s = .next { s with held := some .csNewSeq } := by
  simp only [exec, execCsNewSeq, if_neg (csKeyed_of h), takeRng_eq, if_neg (Nat.not_le.2 hr), hold]

theorem csNewSend_ready {s : State} {e : Engine} (h : s.flags.getLsbD 0 = true)
    (hp : s.prime = some e) :
    exec .csNewSend s = .next (respond (seqBytes s.nonceBytes (seqSucc s.nonceBytes s.seq)) { s with
      pe := e.absorb (seqBytes s.nonceBytes (seqSucc s.nonceBytes s.seq))
      seq := seqSucc s.nonceBytes s.seq }) := by
  simp only [exec, execCsNewSend, if_neg (csKeyed_of h), noncePrime, getPrime, hp, State.nonce]

theorem csNewRecv_ready {s : State} {e : Engine} (h : s.flags.getLsbD 0 = true)
    (hp : s.prime = some e) (n : BitVec 24) :
    exec (.csNewRecv n) s = .next (respond [] { s with
      pe := e.absorb (seqBytes s.nonceBytes (truncSeq s.nonceBytes n))
      seq := truncSeq s.nonceBytes n }) := by
  simp only [exec, execCsNewRecv, if_neg (csKeyed_of h), noncePrime, getPrime, hp, State.nonce]

theorem csEncrypt_ready {s : State} (h : s.flags.getLsbD 0 = true) (src : List Byte) :
    exec (.csEncrypt src) s = .next (respond (s.pe.cipher addCombine src).1 { s with
      pe := (s.pe.cipher addCombine src).2 }) := by
  simp only [exec, execCsEncrypt, if_neg (csKeyed_of h)]

theorem csDecrypt_ready {s : State} (h : s.flags.getLsbD 0 = true) (src : List Byte) :
    exec (.csDecrypt src) s = .next (respond (s.pe.cipher subCombine src).1 { s with
      pe := (s.pe.cipher subCombine src).2 }) := by
  simp only [exec, execCsDecrypt, if_neg (csKeyed_of h)]

theorem abSetKey_ready {s : State} {key : List Byte} (h : key.length = 7) :
    exec (.abSetKey key) s = .next (respond [] { s with
      T := some (abKeyedTable s.abSeed key), PT := some (abKeyedTable s.abSeed key)
      flags := s.flags ||| 0x02 }) := by
  have hk : ¬ key.length ≠ abKeyBytes := by simp [abKeyBytes, h]
  simp only [exec, execAbSetKey, if_neg hk, setAbKeyed]

theorem abNewSeq_ready {s : State} (h : s.flags.getLsbD 1 = true) {b0 b1 b2 : Byte}
    {rest : List Byte} (hr : s.rng = b0 :: b1 :: b2 :: rest) :
    exec .abNewSeq s = .next (respond [] { s with
      aseq := be16 b0 b1, roll := b2, rng := rest }) := by
  simp only [exec, execAbNewSeq, if_neg (abKeyed_of h), takeRng_eq, hr]
  simp

theorem abNewSeq_short {s : State} (h : s.flags.getLsbD 1 = true) (hr : s.rng.length < 3) :
    exec .abNewSeq s = .next { s with held := some .abNewSeq } := by
  simp only [exec, execAbNewSeq, if_neg (abKeyed_of h), takeRng_eq, if_neg (Nat.not_le.2 hr), hold]

theorem abNewSend_ready {s : State} {PT : Table} (h : s.flags.getLsbD 1 = true)
    (hp : s.PT = some PT) :
    exec .abNewSend s = .next (respond
      (bytesBe16 (s.aseq + 1) ++ [if s.aseq + 1 = 0 then s.roll + 1 else s.roll]) { s with
        T := some PT
        aseq := s.aseq + 1
        roll := if s.aseq + 1 = 0 then s.roll + 1 else s.roll }) := by
  simp only [exec, execAbNewSend, if_neg (abKeyed_of h), hp, bumpAbCounters, State.abCounters]

theorem abNewRecv_ready {s : State} {PT : Table} (h : s.flags.getLsbD 1 = true)
    (hp : s.PT = some PT) (n : BitVec 16) (r : Byte) :
    exec (.abNewRecv n r) s = .next (respond [] { s with T := some PT, aseq := n, roll := r }) := by
  simp only [exec, execAbNewRecv, if_neg (abKeyed_of h), hp]

theorem abCombine_ready {s : State} {T : Table} (h : s.flags.getLsbD 1 = true) (hT : s.T = some T)
    (src : List Byte) :
    exec (.abCombine src) s = .next (respond (abPass s.abSeed src T).1 { s with
      T := some (abPass s.abSeed src T).2 }) := by
  simp only [exec, execAbCombine, if_neg (abKeyed_of h), hT]

end Sys2Proof.Machine
end

