-- ==== Sys2Proof/Tests/Slice0.lean ====
section
/-! SUPPORT. The model's own tests: ill-formed commands, packets written out from R81 and R86, single steps against 95_test_vectors.md, and for every statement with hypotheses a state and operands that meet them. -/

namespace Sys2Proof.Tests

open Sys2Proof Sys2Proof.Machine

/-! ### States the tests start from -/

/-- Reset of a 2-byte core. -/
def fresh : State := State.resetCore .two

/-- Reset of a 3-byte core. -/
def fresh3 : State := State.resetCore .three

/-- A 2-byte core with `a` nibbles absorbed. -/
def withA (a : Byte) : State := { fresh with pe := { Engine.initialized with a := a } }

/-- The key `K16` of 95_test_vectors.md. -/
def k16 : List Byte := [0, 1, 2, 3, 4, 5, 6, 7, 8, 9, 10, 11, 12, 13, 14, 15]

/-- The key `K7` of 95_test_vectors.md. -/
def k7 : List Byte := [1, 2, 3, 4, 5, 6, 7]

/-- A core with all three flags set and every table present. -/
def keyed : State :=
  { fresh with
    prime := some Engine.initialized
    T := some Table.identity
    PT := some Table.identity
    flags := 0x07 }

/-- The same on a 3-byte core. -/
def keyed3 : State := { keyed with nonceBytes := .three }

/-- One look at the state a command leaves. -/
def got {α : Type} (f : State → α) : Host.Outcome State Fault Refusal → Option α
  | .next t => some (f t)
  | .fault _ => none
  | .refused _ => none

/-- The bytes of the last response packet. -/
def reply (t : State) : List Byte :=
  match t.responses.getLast? with
  | some p => p.bytes
  | none => []

/-! ### WellFormed refuses what has no packet (R81, R83) -/

theorem test_illFormed_macKey (o : BitVec 16) (m : List Byte) :
    Instr.wellFormed .two (.peMac o (List.replicate 65536 0) m) = false := by
  simp only [Instr.wellFormed, List.length_replicate]; decide
theorem test_wellFormed_macKey (o : BitVec 16) (m : List Byte) :
    Instr.wellFormed .two (.peMac o (List.replicate 65535 0) m) = true := by
  simp only [Instr.wellFormed, List.length_replicate]; decide
theorem test_illFormed_seq : Instr.wellFormed .two (.csNewRecv 0x010000) = false := by decide
theorem test_wellFormed_seq : Instr.wellFormed .two (.csNewRecv 0x00ffff) = true ∧
    Instr.wellFormed .three (.csNewRecv 0xffffff) = true := by decide

/-! ### One packet a command, written out from the formats of R81 and the opcodes of R86 -/

theorem test_word_peInit : decode .two ⟨0x01, []⟩ = .ok .peInit ∧
    encode .two .peInit = ⟨0x01, []⟩ := by decide
theorem test_word_peAbsorb : decode .two ⟨0x02, [0x41, 0x42]⟩ = .ok (.peAbsorb [0x41, 0x42]) ∧
    encode .two (.peAbsorb [0x41, 0x42]) = ⟨0x02, [0x41, 0x42]⟩ := by decide
theorem test_word_peAbsorbStop : decode .two ⟨0x03, []⟩ = .ok .peAbsorbStop ∧
    encode .two .peAbsorbStop = ⟨0x03, []⟩ := by decide
theorem test_word_peShuffle : decode .two ⟨0x04, []⟩ = .ok .peShuffle ∧
    encode .two .peShuffle = ⟨0x04, []⟩ := by decide
theorem test_word_peDrip : decode .two ⟨0x05, []⟩ = .ok .peDrip ∧
    encode .two .peDrip = ⟨0x05, []⟩ := by decide
theorem test_word_peSqueeze : decode .two ⟨0x06, [0x01, 0x08]⟩ = .ok (.peSqueeze 0x0108) ∧
    encode .two (.peSqueeze 0x0108) = ⟨0x06, [0x01, 0x08]⟩ := by decide
theorem test_word_peSetPrime : decode .two ⟨0x07, []⟩ = .ok .peSetPrime ∧
    encode .two .peSetPrime = ⟨0x07, []⟩ := by decide
theorem test_word_peGetPrime : decode .two ⟨0x08, []⟩ = .ok .peGetPrime ∧
    encode .two .peGetPrime = ⟨0x08, []⟩ := by decide
theorem test_word_peHash :
    decode .two ⟨0x09, [0x01, 0x2c, 0x41, 0x42, 0x43]⟩ = .ok (.peHash 300 [0x41, 0x42, 0x43]) ∧
    encode .two (.peHash 300 [0x41, 0x42, 0x43]) = ⟨0x09, [0x01, 0x2c, 0x41, 0x42, 0x43]⟩ := by
  decide
theorem test_word_peMac :
    decode .two ⟨0x0a, [0x00, 0x08, 0x00, 0x03, 0x6b, 0x65, 0x79, 0x41]⟩ =
      .ok (.peMac 8 [0x6b, 0x65, 0x79] [0x41]) ∧
    encode .two (.peMac 8 [0x6b, 0x65, 0x79] [0x41]) =
      ⟨0x0a, [0x00, 0x08, 0x00, 0x03, 0x6b, 0x65, 0x79, 0x41]⟩ := by decide
theorem test_word_csSetKey : decode .two ⟨0x20, k16⟩ = .ok (.csSetKey k16) ∧
    encode .two (.csSetKey k16) = ⟨0x20, k16⟩ := by decide
theorem test_word_csNewSeq : decode .two ⟨0x21, []⟩ = .ok .csNewSeq ∧
    encode .two .csNewSeq = ⟨0x21, []⟩ := by decide
theorem test_word_csNewSend : decode .two ⟨0x22, []⟩ = .ok .csNewSend ∧
    encode .two .csNewSend = ⟨0x22, []⟩ := by decide
theorem test_word_csNewRecv : decode .two ⟨0x23, [0x12, 0x34]⟩ = .ok (.csNewRecv 0x1234) ∧
    decode .three ⟨0x23, [0x12, 0x34, 0x56]⟩ = .ok (.csNewRecv 0x123456) ∧
    encode .two (.csNewRecv 0x1234) = ⟨0x23, [0x12, 0x34]⟩ := by decide
theorem test_word_csEncrypt : decode .two ⟨0x24, [0x48, 0x65]⟩ = .ok (.csEncrypt [0x48, 0x65]) ∧
    encode .two (.csEncrypt [0x48, 0x65]) = ⟨0x24, [0x48, 0x65]⟩ := by decide
theorem test_word_csDecrypt : decode .two ⟨0x25, [0xa7, 0x29]⟩ = .ok (.csDecrypt [0xa7, 0x29]) ∧
    encode .two (.csDecrypt [0xa7, 0x29]) = ⟨0x25, [0xa7, 0x29]⟩ := by decide
theorem test_word_csRdSeq : decode .two ⟨0x26, []⟩ = .ok .csRdSeq ∧
    encode .two .csRdSeq = ⟨0x26, []⟩ := by decide
theorem test_word_abSetKey : decode .two ⟨0x40, k7⟩ = .ok (.abSetKey k7) ∧
    encode .two (.abSetKey k7) = ⟨0x40, k7⟩ := by decide
theorem test_word_abNewSeq : decode .two ⟨0x41, []⟩ = .ok .abNewSeq ∧
    encode .two .abNewSeq = ⟨0x41, []⟩ := by decide
theorem test_word_abNewSend : decode .two ⟨0x42, []⟩ = .ok .abNewSend ∧
    encode .two .abNewSend = ⟨0x42, []⟩ := by decide
theorem test_word_abNewRecv : decode .two ⟨0x43, [0x12, 0x34, 0x05]⟩ = .ok (.abNewRecv 0x1234 5) ∧
    encode .two (.abNewRecv 0x1234 5) = ⟨0x43, [0x12, 0x34, 0x05]⟩ := by decide
theorem test_word_abCombine : decode .two ⟨0x44, [0x48]⟩ = .ok (.abCombine [0x48]) ∧
    encode .two (.abCombine [0x48]) = ⟨0x44, [0x48]⟩ := by decide
theorem test_word_abRdSeq : decode .two ⟨0x46, []⟩ = .ok .abRdSeq ∧
    encode .two .abRdSeq = ⟨0x46, []⟩ := by decide
theorem test_word_sysRdStat : decode .two ⟨0xf0, []⟩ = .ok .sysRdStat ∧
    encode .two .sysRdStat = ⟨0xf0, []⟩ := by decide

/-- R87: the opcodes next to the legal ones, of any length. -/
theorem test_illegal : decode .two ⟨0x00, []⟩ = .error .illegalCommand ∧
    decode .two ⟨0x0b, []⟩ = .error .illegalCommand ∧
    decode .two ⟨0x45, [1, 2]⟩ = .error .illegalCommand ∧
    decode .two ⟨0xf1, []⟩ = .error .illegalCommand := by decide
/-- R82: one byte too many or too few, and V50's 3-byte `CS.NEWRECV` on a 3-byte core. -/
theorem test_malformed : decode .two ⟨0x01, [0]⟩ = .error .malformedCommand ∧
    decode .two ⟨0x06, [0]⟩ = .error .malformedCommand ∧
    decode .two ⟨0x09, [0]⟩ = .error .malformedCommand ∧
    decode .two ⟨0x0a, [0, 8, 0, 4, 1, 2, 3]⟩ = .error .malformedCommand ∧
    decode .three ⟨0x23, [0x12, 0x34]⟩ = .error .malformedCommand ∧
    decode .two ⟨0x43, [0, 0]⟩ = .error .malformedCommand := by decide
/-- The rows of spec/opcode_table.json have 8 bits; the operand bytes are zeros. -/
theorem test_tableWord : decodeTableWord 8 0x0a = some (.peMac 0 [] []) ∧
    decodeTableWord 8 0x23 = some (.csNewRecv 0) ∧
    decodeTableWord 16 0x4102 = some (.peAbsorb [0x41]) ∧
    decodeTableWord 8 0x45 = none := by decide
/-- `withFetchWord` makes `step` run the word as the first command after reset: `PE.ABSORBSTOP`. -/
theorem test_fetchWord : got (fun t => (t.pe.a, reply t, t.commands))
    (step (State.reset.withFetchWord 8 0x03)) = some (1, [0x00], []) := by decide

/-! ### Single steps, from 95_test_vectors.md or by hand from the rule cited -/

/-- R124, from a state with nibbles absorbed. -/
theorem test_peInit : got (fun t => (t.pe.a, t.pe.w, reply t)) (exec .peInit (withA 5)) =
    some (0, 1, [0x00]) := by decide
/-- V10, byte `41`. -/
theorem test_peAbsorb_41 :
    got (fun t => (t.pe.a, t.pe.S.read 0, t.pe.S.read 129, t.pe.S.read 1, t.pe.S.read 132))
      (exec (.peAbsorb [0x41]) fresh) = some (2, 129, 0, 132, 1) := by decide
/-- V10, byte `00`: both nibbles swap with entry 128. -/
theorem test_peAbsorb_00 :
    got (fun t => (t.pe.a, t.pe.S.read 0, t.pe.S.read 1, t.pe.S.read 128))
      (exec (.peAbsorb [0x00]) fresh) = some (2, 128, 0, 1) := by decide
/-- V11, `absorbStop` alone; R119 at 127. -/
theorem test_peAbsorbStop : got (fun t => (t.pe.a, t.pe.S.read 0)) (exec .peAbsorbStop fresh) =
    some (1, 0) ∧ got (fun t => t.pe.a) (exec .peAbsorbStop (withA 127)) = some 128 := by decide
/-- V8: `i = 0`, `a = 0`, `w = 7`. -/
theorem test_peShuffle : got (fun t => (t.pe.i, t.pe.z, t.pe.a, t.pe.w)) (exec .peShuffle fresh) =
    some (0, 0, 0, 7) := by
  simp only [exec, execPeShuffle, respond, answer, got, Engine.shuffle_i, Engine.shuffle_z,
    Engine.shuffle_a, Engine.shuffle_w]
  decide
/-- V4 and V5: the first drip from initialized. -/
theorem test_peDrip : got (fun t => (reply t, t.pe.i, t.pe.j, t.pe.k, t.pe.z))
    (exec .peDrip fresh) = some ([0x00, 0x04], 1, 1, 2, 4) := by decide
/-- V6: the eight drips from initialized; `i` has advanced by 8. -/
theorem test_peSqueeze : got (fun t => (reply t, t.pe.i)) (exec (.peSqueeze 8) fresh) =
    some ([0x00, 0x04, 0x14, 0x45, 0xce, 0x39, 0xfc, 0xe3, 0xdf], 8) := by decide
/-- R121: no bytes and nothing absorbed. -/
theorem test_peSqueeze_none : got (fun t => (reply t, t.pe.i)) (exec (.peSqueeze 0) fresh) =
    some ([0x00], 0) := by decide
/-- R130. -/
theorem test_peSetPrime : got (fun t => (t.prime.map (fun e => e.a), t.flags))
    (exec .peSetPrime (withA 7)) = some (some 7, 0x04) := by decide
/-- R131: the snapshot comes back, and R206 before any capture. -/
theorem test_peGetPrime : got (fun t => (t.pe.a, reply t))
    (exec .peGetPrime { keyed with pe := (withA 9).pe }) = some (0, [0x00]) := by decide
theorem test_peGetPrime_none : got (fun t => (reply t, t.err)) (exec .peGetPrime fresh) =
    some ([0x05], 0x10) := by decide
/-- V31a: 300 asked, a 256-byte response. -/
theorem test_peHash : got (fun t => (t.responses.map fun p => p.bytes.length))
    (exec (.peHash 300 [0x41, 0x42, 0x43]) fresh) = some [256] := by
  simp [exec, execPeHash, respond, answer, got, fresh, State.resetCore, Packet.bytes, clampOutLen]
/-- V32: 300 asked, 255 data bytes. -/
theorem test_peMac : got (fun t => (t.responses.map fun p => p.bytes.length))
    (exec (.peMac 300 [0x6b] [0x41]) fresh) = some [256] := by
  simp [exec, execPeMac, respond, answer, got, fresh, State.resetCore, Packet.bytes, clampOutLen]
/-- V20: entries of the table, `a`, `FLAGS`. -/
theorem test_csSetKey : got (fun t => (t.pe.a, t.pe.S.read 0, t.pe.S.read 2, t.pe.S.read 31,
    t.pe.S.read 128, t.pe.S.read 143, t.flags)) (exec (.csSetKey k16) fresh) =
      some (33, 0x80, 0x81, 0x1d, 0x1f, 0x1e, 0x05) := by decide +kernel
/-- V40, 15 bytes. -/
theorem test_csSetKey_short : got (fun t => (reply t, t.flags, t.err, t.pe.a))
    (exec (.csSetKey (k16.take 15)) fresh) = some ([0x01], 0x00, 0x01, 0) := by decide
/-- R152: two RNG bytes make `SEQ`, as V43's `ab cd` do; the third stays. -/
theorem test_csNewSeq : got (fun t => (t.seq, t.rng, t.pe.a, reply t))
    (exec .csNewSeq { keyed with rng := [0xab, 0xcd, 0xef] }) =
      some (0xabcd, [0xef], 4, [0x00]) := by decide
/-- R212: one byte is not enough, and none is taken. -/
theorem test_csNewSeq_short : got (fun t => (t.held, t.rng, t.responses))
    (exec .csNewSeq { keyed with rng := [0xab] }) =
      some (some .csNewSeq, [0xab], []) := by decide
/-- V47. -/
theorem test_csNewSend_wraps : got (fun t => (reply t, t.seq, t.pe.a))
    (exec .csNewSend { keyed with seq := 0xffff }) = some ([0, 0, 0], 0, 4) := by decide
/-- V52. -/
theorem test_csNewSend_wraps3 : got (fun t => (reply t, t.seq))
    (exec .csNewSend { keyed3 with seq := 0xffffff }) = some ([0, 0, 0, 0], 0) := by decide
/-- V42, over the identity: nibbles 2, 1, 4, 3 at entries 0 to 3. -/
theorem test_csNewRecv : got (fun t => (t.seq, t.pe.a, t.pe.S.read 0, t.pe.S.read 1, t.pe.S.read 2,
    t.pe.S.read 3)) (exec (.csNewRecv 0x1234) keyed) = some (0x1234, 4, 130, 129, 132, 131) := by
  decide
/-- V6's drips `04 14` added to `ff 10`: the first wraps. -/
theorem test_csEncrypt : got (fun t => (reply t, t.pe.i)) (exec (.csEncrypt [0xff, 0x10]) keyed) =
    some ([0x00, 0x03, 0x24], 2) := by decide
/-- V53. -/
theorem test_csEncrypt_unkeyed : got (fun t => (reply t, t.err))
    (exec (.csEncrypt [0x41]) fresh) = some ([0x02], 0x02) := by decide
/-- V6's drips `04 14` subtracted from `03 24`: the first borrows. -/
theorem test_csDecrypt : got reply (exec (.csDecrypt [0x03, 0x24]) keyed) =
    some [0x00, 0xff, 0x10] := by decide
/-- R157, most significant byte first. -/
theorem test_csRdSeq : got reply (exec .csRdSeq { fresh3 with seq := 0x123456 }) =
    some [0x00, 0x12, 0x34, 0x56] := by decide
/-- V60, 8 bytes. -/
theorem test_abSetKey_long : got (fun t => (reply t, t.flags, t.err))
    (exec (.abSetKey (k7 ++ [8])) fresh) = some ([0x01], 0x00, 0x01) := by decide
/-- V30: the first turn of the key schedule swaps entries 0 and 1. -/
theorem test_abKeyTurn : (abKeyTurn k7 (0, Table.identity) 0).1 = 1 ∧
    (abKeyTurn k7 (0, Table.identity) 0).2.read 0 = 1 := by decide
/-- R171 by hand: `ai = 1`, `aj = 0 + T[1] = 1`, the byte `T[1 + 1]`. -/
theorem test_abStep : (abStep ⟨0, 0, Table.identity⟩).1 = 2 ∧
    (abStep ⟨0, 0, Table.identity⟩).2.aj = 1 := by decide
/-- V66. -/
theorem test_abNewSeq : got (fun t => (t.aseq, t.roll, t.rng, reply t))
    (exec .abNewSeq { keyed with rng := [0xde, 0xad, 0xbe] }) =
      some (0xdead, 0xbe, [], [0x00]) := by decide
/-- V65, the third and fourth lines. -/
theorem test_abNewSend : got reply (exec .abNewSend { keyed with aseq := 0xffff, roll := 7 }) =
      some [0x00, 0x00, 0x00, 0x08] ∧
    got reply (exec .abNewSend { keyed with aseq := 0xffff, roll := 0xff }) =
      some [0x00, 0x00, 0x00, 0x00] := by decide
/-- V65, the second line. -/
theorem test_abNewSend_noWrap :
    got reply (exec .abNewSend { keyed with aseq := 0xfffe, roll := 7 }) =
      some [0x00, 0xff, 0xff, 0x07] := by decide
/-- R177. -/
theorem test_abNewRecv : got (fun t => (t.aseq, t.roll, reply t))
    (exec (.abNewRecv 0x1234 5) keyed) = some (0x1234, 5, [0x00]) := by decide
/-- V63. -/
theorem test_abCombine_empty : got reply (exec (.abCombine []) keyed) = some [0x00] := by decide
/-- V67. -/
theorem test_abCombine_unkeyed : got (fun t => (reply t, t.err)) (exec (.abCombine [0]) fresh) =
    some ([0x02], 0x02) := by decide
/-- V65, the `AB.RDSEQ` line. -/
theorem test_abRdSeq : got reply (exec .abRdSeq { fresh with aseq := 0xffff, roll := 7 }) =
    some [0x00, 0xff, 0xff, 0x07] := by decide
/-- V53: `00 00 03 02` with `ERR` 03 on a 2-byte core. -/
theorem test_sysRdStat : got reply (exec .sysRdStat { fresh with err := 0x03 }) =
    some [0x00, 0x00, 0x03, 0x02] := by decide
/-- V9 (c) and (d): `crush` swaps a pair out of order and leaves one in order. -/
theorem test_crushPair : (crushPair (Table.identity.swap 0 255) 0).read 0 = 0 ∧
    (crushPair (Table.identity.swap 1 2) 1).read 1 = 2 := by decide
/-! ### Witnesses: a state and operands that meet the hypotheses of each statement, at the edges of its ranges -/

/-- DecodeOfEncode. -/
theorem witness_wellFormed : Instr.wellFormed .two (.csNewRecv 0xffff) = true ∧
    Instr.wellFormed .three (.csNewRecv 0xffffff) = true ∧
    Instr.wellFormed .two (.peMac 0xffff [1] []) = true := by decide
/-- EncodeOfDecode. -/
theorem witness_decode : decode .three ⟨0x23, [0xff, 0xff, 0xff]⟩ = .ok (.csNewRecv 0xffffff) := by
  decide
/-- IllegalOpcodesRaise: both ends of each range of R87. -/
theorem witness_illegal : ∀ op ∈ [0x00, 0x0b, 0x1f, 0x27, 0x3f, 0x45, 0x47, 0xef, 0xf1, 0xff],
    illegalOpcode op := by unfold illegalOpcode; decide
theorem witness_illegal_state : (presentPacket ⟨0x45, [1]⟩ fresh).held = none ∧
    (presentPacket ⟨0x45, [1]⟩ fresh).commands = ⟨0x45, [1]⟩ :: [] ∧
    illegalOpcode (⟨0x45, [1]⟩ : Packet).first.toNat := by unfold illegalOpcode; decide
/-- MalformedPacketsRaise: each clause, at the length next to a legal one. -/
theorem witness_malformed : malformedLength .two ⟨0xf0, [0]⟩ ∧ malformedLength .two ⟨0x06, [0]⟩ ∧
    malformedLength .two ⟨0x06, [0, 0, 0]⟩ ∧ malformedLength .two ⟨0x09, [0]⟩ ∧
    malformedLength .two ⟨0x0a, [0, 0, 0]⟩ ∧ malformedLength .two ⟨0x0a, [0, 0, 0, 1]⟩ ∧
    malformedLength .two ⟨0x23, [0, 0, 0]⟩ ∧ malformedLength .three ⟨0x23, [0, 0]⟩ ∧
    malformedLength .two ⟨0x43, [0, 0]⟩ ∧ ¬ malformedLength .two ⟨0x0a, [0, 0, 0, 1, 9]⟩ := by
  simp [malformedLength, beNat]
theorem witness_malformed_state : (presentPacket ⟨0x01, [0]⟩ fresh).held = none ∧
    (presentPacket ⟨0x01, [0]⟩ fresh).commands = ⟨0x01, [0]⟩ :: [] ∧
    malformedLength (presentPacket ⟨0x01, [0]⟩ fresh).nonceBytes ⟨0x01, [0]⟩ := by
  refine ⟨by decide, by decide, ?_⟩
  simp [malformedLength]
/-- StepRunsDecoded. -/
theorem witness_stepRuns : (presentPacket ⟨0x44, [7]⟩ fresh).held = none ∧
    (presentPacket ⟨0x44, [7]⟩ fresh).commands = ⟨0x44, [7]⟩ :: [] ∧
    decode (presentPacket ⟨0x44, [7]⟩ fresh).nonceBytes ⟨0x44, [7]⟩ = .ok (.abCombine [7]) := by
  decide
/-- StepIdleOrHeld. -/
theorem witness_idle : fresh.held = none ∧ fresh.commands = [] := by decide
theorem witness_held : { keyed with held := some .abNewSeq }.held = some .abNewSeq := by decide
/-- OneResponsePerCommand: an answer, an error, a hold. -/
theorem witness_next : (∃ t, exec .csRdSeq fresh = .next t) ∧
    (∃ t, exec .peGetPrime fresh = .next t) ∧
    ∃ t, exec .csNewSeq keyed = .next t ∧ t.held = some .csNewSeq :=
  ⟨⟨_, rfl⟩, ⟨_, rfl⟩, _, csNewSeq_short (by decide) (by decide), rfl⟩
/-- ResponseDataLengths, the longest and the shortest `PE.HASH`. -/
theorem witness_dataLength (m : List Byte) : ∀ n ∈ [(0 : BitVec 16), 0xffff],
    ∃ t d, exec (.peHash n m) fresh = .next t ∧ t.responses = fresh.responses ++ [⟨0x00, d⟩] :=
  fun _ _ => ⟨_, _, rfl, rfl⟩
/-- ErrorsArePrecise and StatusBitsAreSticky: a step that answers an error, with `ERR` and `FLAGS`
bits already set. -/
theorem witness_error : ∃ t : State,
    step (presentPacket ⟨0x45, []⟩ { keyed with err := 0x01 }) = .next t ∧
    t.responses = keyed.responses ++ [⟨0x03, []⟩] ∧ (0x03 : Byte) ≠ 0 ∧
    keyed.flags.getLsbD 2 = true := ⟨_, rfl, rfl, by decide, by decide⟩
/-- StatusBitsAreSticky: a step that answers a success. -/
theorem witness_success : ∃ t : State, step (presentPacket ⟨0x07, []⟩ fresh) = .next t ∧
    t.responses = fresh.responses ++ [⟨0x00, []⟩] := ⟨_, rfl, rfl⟩
/-- UnkeyedSessionRaises, each session alone unkeyed. -/
theorem witness_unkeyed : { keyed with flags := 0x06 }.flags.getLsbD 0 = false ∧
    { keyed with flags := 0x05 }.flags.getLsbD 1 = false := by decide
/-- WrongKeyLengthRaises, one byte short and one long. -/
theorem witness_wrongKey : (k16.take 15).length ≠ 16 ∧ (k16 ++ [16]).length ≠ 16 ∧
    (k7.take 6).length ≠ 7 ∧ (k7 ++ [8]).length ≠ 7 := by decide
/-- GetPrimeUncapturedRaises, with both other flags set. -/
theorem witness_uncaptured : { keyed with flags := 0x03 }.flags.getLsbD 2 = false := by decide

/-- A keyed core with a `CS.NEWSEND` at its port. -/
def sending : State := presentPacket ⟨0x22, []⟩ keyed

/-- StepKeepsInv, InvNeverStops, TablesStayPermutations and RegistersStayBounded: a keyed core that
is about to run a command meets the invariant. -/
theorem sending_inv : sending.Inv where
  tables := ⟨Table.identity_isPerm, fun _ h => by cases h; exact Table.identity_isPerm,
    fun _ h => by cases h; exact Table.identity_isPerm,
    fun _ h => by cases h; exact Table.identity_isPerm⟩
  registers := ⟨Engine.initialized_inBounds, fun _ h => by
    cases h; exact Engine.initialized_inBounds⟩
  flagsTell := ⟨by decide, by decide, by decide, by decide⟩
  reserved := ⟨by decide, by decide⟩
  seqInRange := by show (0 : BitVec 24).toNat < NonceBytes.two.seqMod; decide
theorem witness_inv : sending.Inv ∧ sending.TablesPermute ∧ sending.RegistersBounded ∧
    got (fun t => (t.seq, t.pe.a)) (step sending) = some (1, 4) :=
  ⟨sending_inv, sending_inv.tables, sending_inv.registers, by decide⟩
/-- NonceBytesNeverChange. -/
theorem witness_step3 : step keyed3 = .next keyed3 := rfl
/-- AccessTable, for every column: a command that changes it. -/
theorem witness_access : ∃ a b c d e f,
    exec .peAbsorbStop keyed = .next a ∧ a.pe ≠ keyed.pe ∧
    exec .peSetPrime (withA 5) = .next b ∧ b.prime ≠ (withA 5).prime ∧ b.flags ≠ (withA 5).flags ∧
    exec .csNewSend keyed = .next c ∧ c.seq ≠ keyed.seq ∧
    exec .abNewSend { keyed with T := none } = .next d ∧ d.T ≠ none ∧ d.aseq ≠ keyed.aseq ∧
    exec (.abSetKey k7) fresh = .next e ∧ e.PT ≠ fresh.PT ∧
    exec .abNewSeq { keyed with rng := [1, 2, 3] } = .next f ∧ f.rng ≠ [1, 2, 3] := by
  refine ⟨_, _, _, _, _, _, rfl, by decide, rfl, by decide, by decide,
    csNewSend_ready (by decide) rfl, by decide, abNewSend_ready (by decide) rfl, ?_, by decide,
    abSetKey_ready (by decide), ?_, abNewSeq_ready (by decide) rfl, by decide⟩
  · exact fun h => by cases h
  · exact fun h => by cases h
/-- AbBlindToEngine: two states that agree on the Alternate Backend alone. -/
theorem witness_abBlind :
    let s' := { keyed with pe := (withA 9).pe, prime := none, seq := 7, err := 4, flags := 0x02 }
    isAb .abNewSend ∧ s'.T = keyed.T ∧ s'.PT = keyed.PT ∧ s'.aseq = keyed.aseq ∧
      s'.roll = keyed.roll ∧ s'.abKeyed = keyed.abKeyed ∧ s'.rng = keyed.rng ∧
      ∃ t, exec .abNewSend keyed = .next t := by
  refine ⟨?_, rfl, rfl, rfl, rfl, by decide, rfl, _, abNewSend_ready (by decide) rfl⟩
  unfold isAb
  decide
/-- EngineBlindToAb: two states that agree on the engine and the session alone. -/
theorem witness_engineBlind :
    let s' := { keyed with T := none, PT := none, aseq := 9, roll := 1, err := 4, flags := 0x05 }
    isPeOrCs .csNewSend ∧ s'.pe = keyed.pe ∧ s'.prime = keyed.prime ∧ s'.seq = keyed.seq ∧
      s'.csKeyed = keyed.csKeyed ∧ s'.primeValid = keyed.primeValid ∧
      s'.nonceBytes = keyed.nonceBytes ∧ s'.rng = keyed.rng ∧
      ∃ t, exec .csNewSend keyed = .next t := by
  refine ⟨?_, rfl, rfl, rfl, by decide, by decide, rfl, rfl, _, csNewSend_ready (by decide) rfl⟩
  unfold isPeOrCs
  decide

/-- CrushOrdersPairs. -/
theorem witness_crush : (0 : Byte).toNat < 128 ∧ (127 : Byte).toNat < 128 := by decide
/-- PeAbsorbOneByte, each clause, the first on both sides of the other two and at both ends. -/
theorem witness_absorbOne : (∀ a ∈ [(0 : Byte), 126, 129, 255],
    (withA a).pe.a ≠ 127 ∧ (withA a).pe.a ≠ 128) ∧ (withA 127).pe.a = 127 ∧
    (withA 128).pe.a = 128 := by decide
/-- PeAbsorbAtThreshold. -/
theorem witness_absorbFull : (withA 128).pe.a = 128 ∧ [(0x41 : Byte)] ≠ [] := by decide
/-- PeAbsorbCounts: "64 bytes bring `a` to 128", one byte from 126, none at 128. -/
theorem witness_absorbCounts : (withA 0).pe.a.toNat + 2 * (List.replicate 64 (0 : Byte)).length ≤ 128 ∧
    (withA 126).pe.a.toNat + 2 * [(1 : Byte)].length ≤ 128 ∧
    (withA 128).pe.a.toNat + 2 * ([] : List Byte).length ≤ 128 := by decide
/-- PeAbsorbStopCounts, each clause. -/
theorem witness_absorbStop : (withA 127).pe.a ≠ 128 ∧ (withA 128).pe.a = 128 := by decide
/-- PeDripUnabsorbed, PeDripShufflesFirst and the first two clauses of PeSqueezeIsDrips. -/
theorem witness_drip : (withA 0).pe.a = 0 ∧ (withA 1).pe.a ≠ 0 ∧ (withA 128).pe.a ≠ 0 := by decide
/-- PeSqueezeIsDrips, the third clause at both ends. -/
theorem witness_squeeze : (1 : BitVec 16).toNat = (0 : BitVec 16).toNat + 1 ∧
    (0xffff : BitVec 16).toNat = (0xfffe : BitVec 16).toNat + 1 := by decide
/-- PrimeCapturesAndRestores, the second clause. -/
theorem witness_prime : keyed.flags.getLsbD 2 = true ∧ keyed.prime = some Engine.initialized := by
  exact ⟨by decide, rfl⟩
/-- PrimingIsolation: a capture, then commands that change the engine. -/
theorem witness_isolation : ∃ s1 s2, exec .peSetPrime (withA 7) = .next s1 ∧
    (∀ i ∈ [Instr.peInit, .peAbsorb [1, 2, 3], .peDrip], ¬ writesSnapshot i) ∧
    execAll [.peInit, .peAbsorb [1, 2, 3], .peDrip] s1 = .next s2 :=
  ⟨_, _, rfl, by simp [writesSnapshot], rfl⟩
/-- HashAndMacClampAndForget: equal lengths, the smallest among them, and the clamp at its edges. -/
theorem witness_clamp : min (0 : BitVec 16).toNat 255 = min (0 : BitVec 16).toNat 255 ∧
    min (8 : BitVec 16).toNat 255 = min (8 : BitVec 16).toNat 255 ∧
    min (256 : BitVec 16).toNat 255 = min (255 : BitVec 16).toNat 255 ∧
    min (0xffff : BitVec 16).toNat 255 = min (255 : BitVec 16).toNat 255 := by decide

/-- CsSetKeyCaptures, CsRoundTrip. -/
theorem witness_k16 : k16.length = 16 ∧ fresh.nonceBytes = (withA 3).nonceBytes := by decide
/-- CsNewSeqDraws, on either core. -/
theorem witness_newSeq :
    let s := { keyed with rng := [0xab, 0xcd, 1] }
    let s3 := { keyed3 with rng := [0xab, 0xcd, 0xef] }
    (s.flags.getLsbD 0 = true ∧ s.prime = some Engine.initialized ∧
      [(0xab : Byte), 0xcd].length = s.nonceBytes.count ∧ s.rng = [0xab, 0xcd] ++ [1]) ∧
    s3.flags.getLsbD 0 = true ∧ s3.prime = some Engine.initialized ∧
      [(0xab : Byte), 0xcd, 0xef].length = s3.nonceBytes.count ∧
      s3.rng = [0xab, 0xcd, 0xef] ++ [] :=
  ⟨⟨by decide, rfl, by decide, by decide⟩, by decide, rfl, by decide, by decide⟩
/-- HeldCommandResumes, each clause one byte short. -/
theorem witness_hold :
    let s := { keyed with rng := [1] }
    let s3 := { keyed with rng := [1, 2] }
    (s.held = none ∧ s.flags.getLsbD 0 = true ∧ s.prime ≠ none ∧
      s.rng.length < s.nonceBytes.count ∧ s.nonceBytes.count ≤ (s.rng ++ [2]).length) ∧
    s3.held = none ∧ s3.flags.getLsbD 1 = true ∧ s3.rng.length < 3 ∧
      3 ≤ (s3.rng ++ [3]).length :=
  ⟨⟨by decide, by decide, (fun h => by cases h), by decide, by decide⟩, by decide, by decide,
    by decide, by decide⟩
/-- CsNewRecvSets, the greatest value of either core (CsNewSendCounts asks the first two). -/
theorem witness_newRecv : keyed.flags.getLsbD 0 = true ∧ keyed.prime = some Engine.initialized ∧
    (0xffff : BitVec 24).toNat < keyed.nonceBytes.seqMod ∧ keyed3.flags.getLsbD 0 = true ∧
    keyed3.prime = some Engine.initialized ∧
    (0xffffff : BitVec 24).toNat < keyed3.nonceBytes.seqMod :=
  ⟨by decide, rfl, by decide, by decide, rfl, by decide⟩
/-- CsEncryptAddsDrips and CsDecryptSubtractsDrips, unkeyed and keyed. -/
theorem witness_cipher : fresh.flags.getLsbD 0 = false ∧ keyed.flags.getLsbD 0 = true := by decide
/-- CsEncryptContinues. -/
theorem witness_continues : keyed.flags.getLsbD 0 = true ∧
    [(1 : Byte), 2].length = [(9 : Byte), 8].length ∧ [(3 : Byte)].length = [(7 : Byte)].length := by
  decide
/-- CsKeystreamDeterminism, the first clause: a keyed session, then commands that change the
engine. -/
theorem witness_determinism : k16.length = 16 ∧ (withA 3).nonceBytes = fresh.nonceBytes ∧
    (∀ i ∈ [Instr.peInit, .peAbsorbStop, .csRdSeq], ¬ writesSnapshot i) ∧
    ∃ a, execAll (.csSetKey k16 :: [.peInit, .peAbsorbStop, .csRdSeq]) fresh = .next a := by
  refine ⟨by decide, by decide, by simp [writesSnapshot], ?_⟩
  simp only [execAll, csSetKey_ready (show k16.length = 16 by decide)]
  exact ⟨_, rfl⟩
/-- CsKeystreamDeterminism, the second clause: `CS.NEWSEND` from `SEQ` 0 and `CS.NEWSEQ` with the
bytes `00 01` reach the same number. -/
theorem witness_determinism_primed :
    let s' := { withA 3 with rng := [0x00, 0x01] }
    k16.length = 16 ∧ s'.nonceBytes = fresh.nonceBytes ∧ (∀ j ∈ [Instr.peInit], ¬ writesSnapshot j) ∧
      (∀ j ∈ ([] : List Instr), ¬ writesSnapshot j) ∧
      primesPacket .csNewSend ∧ primesPacket .csNewSeq ∧
      ∃ a a' b b', execAll (.csSetKey k16 :: [.peInit]) fresh = .next a ∧
        execAll (.csSetKey k16 :: []) s' = .next a' ∧ exec .csNewSend a = .next b ∧
        exec .csNewSeq a' = .next b' ∧ b.held = none ∧ b'.held = none ∧ b'.seq = b.seq := by
  have hk : k16.length = 16 := by decide
  refine ⟨hk, rfl, by simp [writesSnapshot], by simp, .inr (.inl rfl), .inl rfl, ?_⟩
  simp only [execAll, csSetKey_ready hk]
  exact ⟨_, _, _, _, rfl, rfl, csNewSend_ready (by decide) rfl,
    csNewSeq_ready (bytes := [0x00, 0x01]) (rest := []) (v := 1) (by decide) rfl rfl (by decide),
    rfl, rfl, by decide⟩

/-- AbKeyScheduleRecurrence, AbSetKeyBurnsIn and AbRoundTrip. -/
theorem witness_k7 : k7.length = 7 ∧ (List.replicate 1536 (0 : Byte)).length = 1536 ∧
    keyed.aseq = fresh.aseq ∧ keyed.roll = fresh.roll :=
  ⟨by decide, List.length_replicate, by decide, by decide⟩
/-- AbNewSeqDraws. -/
theorem witness_abNewSeq : { keyed with rng := [0xde, 0xad, 0xbe] }.flags.getLsbD 1 = true ∧
    { keyed with rng := [0xde, 0xad, 0xbe] }.rng = 0xde :: 0xad :: 0xbe :: [] := by decide
/-- AbNewSendCounts, AbNewRecvSets and AbCombineSteps. -/
theorem witness_abKeyed : keyed.flags.getLsbD 1 = true ∧ keyed.PT = some Table.identity ∧
    keyed.T = some Table.identity := ⟨by decide, rfl, rfl⟩
/-- ReadCommandsReport, the first clause at its greatest value. -/
theorem witness_rdSeq : let s := { keyed with seq := 0xffff }
    s.seq.toNat < s.nonceBytes.seqMod := by decide

end Sys2Proof.Tests
end

section
/-! PROOF. The static parameter of the core: `NONCE_BYTES` (R8) and its read-out `CONFIG` (R32). -/

namespace Sys2Proof.Machine

/-- `CONFIG` has no storage of its own: it reads out `NONCE_BYTES` alone (R32). -/
theorem config_eq_of_nonceBytes_eq {s t : State} (h : t.nonceBytes = s.nonceBytes) :
    t.config = s.config :=
  congrArg (fun nb : NonceBytes => BitVec.ofNat 8 nb.count) h

/-- A step stays on the core it started on (R8): of all that a step can do, only the effect of a
command is more than taking a packet, answering, logging or holding, and `effect_frame` says that
no effect touches `NONCE_BYTES`. -/
theorem step_nonceBytes {s t : State} (h : step s = .next t) : t.nonceBytes = s.nonceBytes := by
  refine step_keeps (P := fun u => u.nonceBytes = s.nonceBytes) ?take ?ans ?log ?wait ?eff rfl h
  case take => exact fun _ _ hu => hu
  case ans => exact fun _ _ hu => hu
  case log => exact fun u e hu => (logError_nonceBytes u e).trans hu
  case wait => exact fun _ _ hu => hu
  case eff =>
    intro i u d v hu heff
    obtain ⟨-, -, hnonce, -⟩ := effect_frame heff
    exact hnonce.trans hu

/-- Settles O21: every step keeps `NONCE_BYTES`, and `CONFIG` is a function of it. -/
theorem nonceBytesNeverChange : Obligations.NonceBytesNeverChange := by
  intro s t h
  have hnonce := step_nonceBytes h
  exact ⟨hnonce, config_eq_of_nonceBytes_eq hnonce⟩

end Sys2Proof.Machine
end

section
/-! PROOF. What a successful command may write, form by form (R36). -/

namespace Sys2Proof.Machine

/-- The commands that R36 lets write the live engine. -/
def writesEngine (i : Instr) : Prop := isPeOrCs i ∧ i ≠ .peSetPrime ∧ i ≠ .csRdSeq

theorem writesEngine_of_primesPacket {i : Instr} (h : primesPacket i) : writesEngine i := by
  rcases h with rfl | rfl | ⟨n, rfl⟩ <;> simp [writesEngine, isPeOrCs, Instr.opcode]

/-- The forms of a successful command's effect, by what it writes: the rows of the access table
(R36), with the facts about the written values that the invariants need. -/
inductive Writes (s : State) : Instr → State → Prop
  /-- A read command writes nothing (R157, R179, R190). -/
  | nothing (i : Instr) : Writes s i s
  /-- A PE or CS command that works on the live engine alone. -/
  | engine {i : Instr} (e : Engine) (unit : writesEngine i) : Writes s i { s with pe := e }
  /-- A packet of the session is primed (R150): the engine and a `SEQ` in range, and for
  `CS.NEWSEQ` the RNG port. -/
  | packet {i : Instr} (e : Engine) (v : BitVec 24) (left : List Byte) (unit : primesPacket i)
      (inRange : v.toNat < s.nonceBytes.seqMod) (draw : left ≠ s.rng → i = .csNewSeq) :
      Writes s i { s with pe := e, seq := v, rng := left }
  /-- The live engine is captured (R130). -/
  | capture : Writes s .peSetPrime { s with prime := some s.pe, flags := s.flags ||| 0x04 }
  /-- The session is keyed (R151). -/
  | csKey (key : List Byte) (e : Engine) : Writes s (.csSetKey key)
      { s with pe := e, prime := some e, flags := s.flags ||| 0x01 ||| 0x04 }
  /-- The backend is keyed (R174). -/
  | abKey (key : List Byte) (t : Table) (perm : t.IsPerm) : Writes s (.abSetKey key)
      { s with T := some t, PT := some t, flags := s.flags ||| 0x02 }
  /-- The counters are drawn (R175). -/
  | abDraw (n : BitVec 16) (r : Byte) (left : List Byte) :
      Writes s .abNewSeq { s with aseq := n, roll := r, rng := left }
  /-- A packet of the backend is primed (R176, R177). -/
  | abPacket {i : Instr} (t : Table) (n : BitVec 16) (r : Byte) (keyed : s.abKeyed = true)
      (kept : s.PT = some t) (unit : i = .abNewSend ∨ ∃ m q, i = .abNewRecv m q) :
      Writes s i { s with T := some t, aseq := n, roll := r }
  /-- A combine pass leaves its swaps in `T` (R178). -/
  | abPass (src : List Byte) (t : Table) (keyed : s.abKeyed = true) (live : s.T = some t) :
      Writes s (.abCombine src) { s with T := some (abPass s.abSeed src t).2 }

/-- The number drawn by `CS.NEWSEQ` is in range (R26, R152). -/
theorem seqOfBytes_getD_lt (nb : NonceBytes) (bytes : List Byte) :
    ((seqOfBytes nb bytes).getD 0).toNat < nb.seqMod := by
  cases h : seqOfBytes nb bytes with
  | none => exact seqMod_pos nb
  | some v => exact (seqBytes_seqOfBytes h).2

/-- Every effect has one of the forms. -/
theorem effect_writes {i : Instr} {s u : State} {d : List Byte} (h : Effect i s d u) :
    Writes s i u := by
  have engine (e : Engine) (hu : u = { s with pe := e })
      (unit : writesEngine i := by simp [writesEngine, isPeOrCs, Instr.opcode]) : Writes s i u :=
    hu ▸ .engine e unit
  cases i
  case peInit => exact engine _ h.2
  case peAbsorb p => exact engine _ h.2
  case peAbsorbStop => exact engine _ h.2
  case peShuffle => exact engine _ h.2
  case peDrip => exact engine _ h.2
  case peSqueeze n => exact engine _ h.2
  case peSetPrime => obtain ⟨-, rfl⟩ := h; exact .capture
  case peGetPrime => obtain ⟨-, e, -, -, hu⟩ := h; exact engine e hu
  case peHash n m => exact engine _ h.2
  case peMac n k m => exact engine _ h.2
  case csSetKey k => obtain ⟨-, -, rfl⟩ := h; exact .csKey k _
  case csNewSeq =>
    obtain ⟨-, -, -, h⟩ := h
    obtain ⟨e, -, rfl⟩ := noncePrime_some h
    exact .packet _ _ _ (.inl rfl) (seqOfBytes_getD_lt _ _) fun _ => rfl
  case csNewSend =>
    obtain ⟨-, -, h⟩ := h
    obtain ⟨e, -, rfl⟩ := noncePrime_some h
    exact .packet _ _ s.rng (.inr (.inl rfl)) (seqSucc_lt _ _) (absurd rfl)
  case csNewRecv n =>
    obtain ⟨-, -, h⟩ := h
    obtain ⟨e, -, rfl⟩ := noncePrime_some h
    exact .packet _ _ s.rng (.inr (.inr ⟨n, rfl⟩)) (truncSeq_lt _ _) (absurd rfl)
  case csEncrypt m => exact engine _ h.2.2
  case csDecrypt m => exact engine _ h.2.2
  case csRdSeq => obtain ⟨-, rfl⟩ := h; exact .nothing _
  case abSetKey k => obtain ⟨-, -, rfl⟩ := h; exact .abKey k _ (abKeyedTable_perm _ k)
  case abNewSeq => obtain ⟨-, -, -, rfl⟩ := h; exact .abDraw _ _ _
  case abNewSend =>
    obtain ⟨keyed, t, ht, -, rfl⟩ := h
    exact .abPacket t _ _ keyed ht (.inl rfl)
  case abNewRecv n r =>
    obtain ⟨keyed, t, ht, -, rfl⟩ := h
    exact .abPacket t n r keyed ht (.inr ⟨n, r, rfl⟩)
  case abCombine m => obtain ⟨keyed, t, ht, -, rfl⟩ := h; exact .abPass m t keyed ht
  case abRdSeq => obtain ⟨-, rfl⟩ := h; exact .nothing _
  case sysRdStat => obtain ⟨-, rfl⟩ := h; exact .nothing _

end Sys2Proof.Machine
end

section
/-! PROOF. The four tables and the engine registers through every step (R22, R24, R25, R27). -/

namespace Sys2Proof.Machine

/-- The live engine and the captured one have a property. -/
def State.EnginesMeet (P : Engine → Prop) (s : State) : Prop :=
  P s.pe ∧ ∀ e, s.prime = some e → P e

/-- A property that the engine's micro-operations keep and a fresh engine has is kept, live and
captured, by every effect. -/
theorem effect_enginesMeet {P : Engine → Prop} (c : Engine.Closed P) (fresh : P Engine.initialized)
    {i : Instr} {s u : State} {d : List Byte} (hs : s.EnginesMeet P) (h : Effect i s d u) :
    u.EnginesMeet P := by
  obtain ⟨live, captured⟩ := hs
  cases i
  case peInit => obtain ⟨-, rfl⟩ := h; exact ⟨fresh, captured⟩
  case peAbsorb p => obtain ⟨-, rfl⟩ := h; exact ⟨c.absorb p live, captured⟩
  case peAbsorbStop => obtain ⟨-, rfl⟩ := h; exact ⟨c.absorbStop live, captured⟩
  case peShuffle => obtain ⟨-, rfl⟩ := h; exact ⟨c.shuffle _ live, captured⟩
  case peDrip => obtain ⟨-, rfl⟩ := h; exact ⟨c.oneDrip live, captured⟩
  case peSqueeze n => obtain ⟨-, rfl⟩ := h; exact ⟨c.squeeze _ live, captured⟩
  case peSetPrime => obtain ⟨-, rfl⟩ := h; exact ⟨live, fun _ he => Option.some.inj he ▸ live⟩
  case peGetPrime => obtain ⟨-, e, he, -, rfl⟩ := h; exact ⟨captured e he, captured⟩
  case peHash n m => obtain ⟨-, rfl⟩ := h; exact ⟨c.hashEngine fresh _ m, captured⟩
  case peMac n k m => obtain ⟨-, rfl⟩ := h; exact ⟨c.macEngine fresh _ k m, captured⟩
  case csSetKey k =>
    obtain ⟨-, -, rfl⟩ := h
    exact ⟨c.keyedEngine fresh k, fun _ he => Option.some.inj he ▸ c.keyedEngine fresh k⟩
  case csNewSeq =>
    obtain ⟨-, -, -, h⟩ := h
    obtain ⟨e, he, rfl⟩ := noncePrime_some h
    exact ⟨c.absorb _ (captured e he), captured⟩
  case csNewSend =>
    obtain ⟨-, -, h⟩ := h
    obtain ⟨e, he, rfl⟩ := noncePrime_some h
    exact ⟨c.absorb _ (captured e he), captured⟩
  case csNewRecv n =>
    obtain ⟨-, -, h⟩ := h
    obtain ⟨e, he, rfl⟩ := noncePrime_some h
    exact ⟨c.absorb _ (captured e he), captured⟩
  case csEncrypt m => obtain ⟨-, -, rfl⟩ := h; exact ⟨c.cipher _ m live, captured⟩
  case csDecrypt m => obtain ⟨-, -, rfl⟩ := h; exact ⟨c.cipher _ m live, captured⟩
  case csRdSeq => obtain ⟨-, rfl⟩ := h; exact ⟨live, captured⟩
  case abSetKey k => obtain ⟨-, -, rfl⟩ := h; exact ⟨live, captured⟩
  case abNewSeq => obtain ⟨-, -, -, rfl⟩ := h; exact ⟨live, captured⟩
  case abNewSend => obtain ⟨-, _, -, -, rfl⟩ := h; exact ⟨live, captured⟩
  case abNewRecv n r => obtain ⟨-, _, -, -, rfl⟩ := h; exact ⟨live, captured⟩
  case abCombine m => obtain ⟨-, _, -, -, rfl⟩ := h; exact ⟨live, captured⟩
  case abRdSeq => obtain ⟨-, rfl⟩ := h; exact ⟨live, captured⟩
  case sysRdStat => obtain ⟨-, rfl⟩ := h; exact ⟨live, captured⟩

/-- A property of an engine that no micro-operation breaks is kept, live and captured, by every
step: `step_keeps`, since a step changes an engine only by an effect. -/
theorem step_enginesMeet {P : Engine → Prop} (c : Engine.Closed P) (fresh : P Engine.initialized)
    {s t : State} (hs : s.EnginesMeet P) (h : step s = .next t) : t.EnginesMeet P :=
  step_keeps (P := State.EnginesMeet P) (fun _ _ hq => hq) (fun _ _ hq => hq) (fun _ _ hq => hq)
    (fun _ _ hq => hq) (fun _ _ _ _ hq he => effect_enginesMeet c fresh hq he) hs h

/-- The tables of the backend are permutations where they hold a value (R27). -/
def State.AbTablesPermute (s : State) : Prop :=
  (∀ t, s.T = some t → t.IsPerm) ∧ ∀ t, s.PT = some t → t.IsPerm

/-- The backend writes a table by its key schedule, by a copy of `PT` or by the swaps of a pass. -/
theorem Writes.abTablesPermute {i : Instr} {s u : State} (hs : s.AbTablesPermute)
    (h : Writes s i u) : u.AbTablesPermute := by
  obtain ⟨hT, hPT⟩ := hs
  have one {t v : Table} (ht : t.IsPerm) (hv : some t = some v) : v.IsPerm :=
    Option.some.inj hv ▸ ht
  cases h with
  | abKey _ _ perm => exact ⟨fun _ => one perm, fun _ => one perm⟩
  | abPacket t _ _ _ kept => exact ⟨fun _ => one (hPT t kept), hPT⟩
  | abPass src t _ live => exact ⟨fun _ => one (abPass_perm _ src (hT t live)), hPT⟩
  | _ => exact ⟨hT, hPT⟩

theorem step_abTablesPermute {s t : State} (hs : s.AbTablesPermute) (h : step s = .next t) :
    t.AbTablesPermute :=
  step_keeps (P := State.AbTablesPermute) (fun _ _ hq => hq) (fun _ _ hq => hq)
    (fun _ _ hq => hq) (fun _ _ hq => hq)
    (fun _ _ _ _ hq he => (effect_writes he).abTablesPermute hq) hs h

/-- Settles O19: `perm_closed` carries `S` and `PS`, and the backend only swaps. -/
theorem tablesStayPermutations : Obligations.TablesStayPermutations := by
  intro s t hs h
  obtain ⟨hlive, hsnapshot⟩ := step_enginesMeet perm_closed Engine.initialized_perm
    ⟨hs.live, hs.snapshot⟩ h
  obtain ⟨hT, hPT⟩ := step_abTablesPermute ⟨hs.abLive, hs.abSnapshot⟩ h
  exact ⟨hlive, hsnapshot, hT, hPT⟩

/-- Settles O20: `inBounds_closed` carries the live and the captured registers. -/
theorem registersStayBounded : Obligations.RegistersStayBounded := by
  intro s t hs h
  obtain ⟨hlive, hsnapshot⟩ := step_enginesMeet inBounds_closed Engine.initialized_inBounds
    ⟨hs.live, hs.snapshot⟩ h
  exact ⟨hlive, hsnapshot⟩

end Sys2Proof.Machine
end

section
/-! PROOF. The invariant of every run: its other parts, and that under it no step stops (R26, R30, R31, R35). -/

namespace Sys2Proof.Machine

/-- Every value is written together with its flag, and the commands that write `T` again are those
of a keyed backend (R35). -/
theorem Writes.flagsTell {i : Instr} {s u : State} (hs : s.FlagsTell) (h : Writes s i u) :
    u.FlagsTell := by
  obtain ⟨hprime, hT, hPT, hkeyed⟩ := hs
  cases h with
  | nothing => exact ⟨hprime, hT, hPT, hkeyed⟩
  | engine => exact ⟨hprime, hT, hPT, hkeyed⟩
  | packet => exact ⟨hprime, hT, hPT, hkeyed⟩
  | capture | csKey | abKey =>
    constructor <;> simp_all [State.primeValid, State.abKeyed, State.csKeyed]
  | abDraw => exact ⟨hprime, hT, hPT, hkeyed⟩
  | abPacket _ _ _ keyed => exact ⟨hprime, keyed, hPT, hkeyed⟩
  | abPass _ _ keyed => exact ⟨hprime, keyed, hPT, hkeyed⟩

/-- `FlagsTell` speaks of four fields alone. -/
theorem State.FlagsTell.congr {s t : State} (hs : s.FlagsTell) (hflags : t.flags = s.flags)
    (hprime : t.prime = s.prime) (hT : t.T = s.T) (hPT : t.PT = s.PT) : t.FlagsTell := by
  obtain ⟨h1, h2, h3, h4⟩ := hs
  constructor <;>
    simpa only [State.primeValid, State.abKeyed, State.csKeyed, hflags, hprime, hT, hPT]

theorem step_flagsTell {s t : State} (hs : s.FlagsTell) (h : step s = .next t) : t.FlagsTell :=
  step_keeps (P := State.FlagsTell) (fun _ _ hq => hq.congr rfl rfl rfl rfl)
    (fun _ _ hq => hq.congr rfl rfl rfl rfl) (fun _ _ hq => hq.congr rfl rfl rfl rfl)
    (fun _ _ hq => hq.congr rfl rfl rfl rfl)
    (fun _ _ _ _ hq he => (effect_writes he).flagsTell hq) hs h

theorem or_toNat_lt {x y : Byte} {n : Nat} (hx : x.toNat < 2 ^ n) (hy : y.toNat < 2 ^ n) :
    (x ||| y).toNat < 2 ^ n := by
  rw [BitVec.toNat_or]
  exact Nat.or_lt_two_pow hx hy

/-- Only the bits 0 to 2 of `FLAGS` are ever set (R30). -/
theorem Writes.flags_lt {i : Instr} {s u : State} (hs : s.flags.toNat < 8) (h : Writes s i u) :
    u.flags.toNat < 8 := by
  cases h with
  | capture => exact or_toNat_lt (n := 3) hs (by decide)
  | csKey => exact or_toNat_lt (n := 3) (or_toNat_lt (n := 3) hs (by decide)) (by decide)
  | abKey => exact or_toNat_lt (n := 3) hs (by decide)
  | _ => exact hs

theorem errBit_toNat_lt (e : Error) : (errBit e).toNat < 32 := by cases e <;> decide

theorem step_reservedZero {s t : State} (hs : s.ReservedZero) (h : step s = .next t) :
    t.ReservedZero := by
  refine step_keeps (P := State.ReservedZero) ?take ?ans ?log ?wait ?eff hs h
  case take => exact fun _ _ hq => ⟨hq.flags, hq.err⟩
  case ans => exact fun _ _ hq => ⟨hq.flags, hq.err⟩
  case log => exact fun _ e hq => ⟨hq.flags, or_toNat_lt (n := 5) hq.err (errBit_toNat_lt e)⟩
  case wait => exact fun _ _ hq => ⟨hq.flags, hq.err⟩
  case eff =>
    intro i q d u hq he
    obtain ⟨-, herr, -, -⟩ := effect_frame he
    exact ⟨(effect_writes he).flags_lt hq.flags, herr ▸ hq.err⟩

/-- `SEQ` is written reduced modulo `SEQ_MOD` (R11, R26). -/
theorem Writes.seqInRange {i : Instr} {s u : State} (hs : s.SeqInRange) (h : Writes s i u) :
    u.SeqInRange := by
  cases h with
  | packet _ _ _ _ inRange => exact inRange
  | _ => exact hs

theorem step_seqInRange {s t : State} (hs : s.SeqInRange) (h : step s = .next t) : t.SeqInRange :=
  step_keeps (P := State.SeqInRange) (fun _ _ hq => hq) (fun _ _ hq => hq) (fun _ _ hq => hq)
    (fun _ _ hq => hq) (fun _ _ _ _ hq he => (effect_writes he).seqInRange hq) hs h

/-- Settles O17: each part of the invariant is kept by itself. -/
theorem stepKeepsInv : Obligations.StepKeepsInv := fun s t hs h =>
  { tables := tablesStayPermutations s t hs.tables h
    registers := registersStayBounded s t hs.registers h
    flagsTell := step_flagsTell hs.flagsTell h
    reserved := step_reservedZero hs.reserved h
    seqInRange := step_seqInRange hs.seqInRange h }

/-- A fault needs a flag set over an absent value, which `FlagsTell` excludes. -/
theorem exec_next_of_flagsTell {s : State} (hs : s.FlagsTell) (i : Instr) :
    ∃ t, exec i s = .next t := by
  cases hx : exec i s with
  | next t => exact ⟨t, rfl⟩
  | refused r => exact absurd hx (exec_not_refused i s r)
  | fault f =>
    obtain ⟨hprime, hT, hPT, hkeyed⟩ := hs
    exfalso
    rcases exec_faults hx with ⟨hnone, hf⟩ | ⟨hf, hnone⟩
    · have hvalid : s.primeValid = true := hf.elim id hkeyed
      simp [hvalid, hnone] at hprime
    · rcases hnone with hnone | hnone
      · simp [hf, hnone] at hT
      · simp [hf, hnone] at hPT

/-- A busy core tries its held command again (R212). -/
theorem step_of_held {s : State} {k : Held} (h : s.held = some k) : step s = exec k.instr s := by
  simp only [step, h]

/-- An idle core with no packet does not change (R220). -/
theorem step_of_no_packet {s : State} (h : s.held = none) (hc : s.commands = []) :
    step s = .next s := by
  simp only [step, h, takeCommand, hc]

/-- An idle core runs the command its next packet decodes to (R68). -/
theorem step_of_decode_ok {s : State} {p : Packet} {rest : List Packet} {i : Instr}
    (h : s.held = none) (hc : s.commands = p :: rest) (hd : decode s.nonceBytes p = .ok i) :
    step s = exec i { s with commands := rest } := by
  simp only [step, h, takeCommand, hc, hd]

/-- An idle core raises what the decoder finds in its next packet (R86, R208). -/
theorem step_of_decode_error {s : State} {p : Packet} {rest : List Packet} {e : Error}
    (h : s.held = none) (hc : s.commands = p :: rest) (hd : decode s.nonceBytes p = .error e) :
    step s = .next (raise e { s with commands := rest }) := by
  simp only [step, h, takeCommand, hc, hd]

/-- Settles O18: whichever command a step runs, it runs it on a state whose flags tell what is
present. -/
theorem invNeverStops : Obligations.InvNeverStops := by
  intro s hs
  have hflags := hs.flagsTell
  cases hh : s.held with
  | some k => rw [step_of_held hh]; exact exec_next_of_flagsTell hflags k.instr
  | none =>
    cases hc : s.commands with
    | nil => exact ⟨s, step_of_no_packet hh hc⟩
    | cons p rest =>
      cases hd : decode s.nonceBytes p with
      | error e => exact ⟨_, step_of_decode_error hh hc hd⟩
      | ok i =>
        have hrest : { s with commands := rest }.FlagsTell := hflags.congr rfl rfl rfl rfl
        rw [step_of_decode_ok hh hc hd]
        exact exec_next_of_flagsTell hrest i

/-- Settles O15: the fields of `State.resetCore` are the table of R35. -/
theorem resetValues : Obligations.ResetValues :=
  ⟨fun _ => ⟨rfl, rfl, rfl, rfl, rfl, rfl, Table.read_identity, rfl, rfl, rfl, rfl, rfl, rfl, rfl,
    rfl, rfl, rfl, rfl⟩, fun _ => rfl, rfl⟩

/-- The engine is a fresh one, every flag is 0 and every other value absent. -/
theorem resetCore_inv (nb : NonceBytes) : (State.resetCore nb).Inv where
  tables := ⟨Engine.initialized_perm, nofun, nofun, nofun⟩
  registers := ⟨Engine.initialized_inBounds, nofun⟩
  flagsTell := by cases nb <;> exact ⟨by decide, by decide, by decide, by decide⟩
  reserved := ⟨Nat.zero_lt_succ 7, Nat.zero_lt_succ 31⟩
  seqInRange := seqMod_pos nb

/-- Settles O16: `State.reset` is the reset state of the 2-byte core. -/
theorem invAtReset : Obligations.InvAtReset := ⟨resetCore_inv, resetCore_inv _⟩

end Sys2Proof.Machine
end

section
/-! PROOF. The status registers, step by step (R30, R31). -/

namespace Sys2Proof.Machine

/-- What one command or step does to the status registers and the response port. -/
inductive StatusMove (s t : State) : Prop
  /-- No answer: a hold, or an idle core with no packet. -/
  | quiet (err : t.err = s.err) (flags : t.flags = s.flags) (noAnswer : t.responses = s.responses)
  /-- An error sets its bit of `ERR` (R204). -/
  | failed (e : Error) (err : t.err = s.err ||| errBit e) (flags : t.flags = s.flags)
      (answer : t.responses = s.responses ++ [⟨e.code, []⟩])
  /-- A success may set bits of `FLAGS` (R130, R151, R174). -/
  | succeeded (mask : Byte) (d : List Byte) (err : t.err = s.err)
      (flags : t.flags = s.flags ||| mask) (answer : t.responses = s.responses ++ [⟨0x00, d⟩])

/-- `FLAGS` is written by setting bits only. -/
theorem Writes.flags_or {i : Instr} {s u : State} (h : Writes s i u) :
    ∃ mask, u.flags = s.flags ||| mask := by
  cases h with
  | capture => exact ⟨0x04, rfl⟩
  | csKey => exact ⟨0x01 ||| 0x04, BitVec.or_assoc _ _ _⟩
  | abKey => exact ⟨0x02, rfl⟩
  | _ => exact ⟨0, BitVec.or_zero.symm⟩

theorem raise_statusMove (e : Error) (s : State) : StatusMove s (raise e s) :=
  .failed e rfl rfl rfl

theorem exec_statusMove {i : Instr} {s t : State} (h : exec i s = .next t) : StatusMove s t := by
  rcases exec_cases h with ⟨e, rfl⟩ | ⟨k, -, rfl⟩ | ⟨d, u, he, rfl⟩
  · exact raise_statusMove e s
  · exact .quiet rfl rfl rfl
  · obtain ⟨hresponses, herr, -, -⟩ := effect_frame he
    obtain ⟨mask, hflags⟩ := (effect_writes he).flags_or
    exact .succeeded mask d herr hflags (by rw [respond_responses, hresponses])

/-- Taking the packet from the port changes none of the three registers. -/
theorem StatusMove.of_take {s t : State} {rest : List Packet}
    (h : StatusMove { s with commands := rest } t) : StatusMove s t := by
  cases h with
  | quiet err flags noAnswer => exact .quiet err flags noAnswer
  | failed e err flags answer => exact .failed e err flags answer
  | succeeded mask d err flags answer => exact .succeeded mask d err flags answer

theorem step_statusMove {s t : State} (h : step s = .next t) : StatusMove s t := by
  rcases step_cases h with ⟨k, -, hx⟩ | ⟨-, -, rfl⟩ | ⟨p, rest, -, -, ⟨i, -, hx⟩ | ⟨e, -, rfl⟩⟩
  · exact exec_statusMove hx
  · exact .quiet rfl rfl rfl
  · exact (exec_statusMove hx).of_take
  · exact (raise_statusMove e _).of_take

theorem getLsbD_or_of_left {x y : Byte} {n : Nat} (h : x.getLsbD n = true) :
    (x ||| y).getLsbD n = true := by
  rw [BitVec.getLsbD_or, h, Bool.true_or]

/-- No bit of `FLAGS` is cleared. -/
theorem StatusMove.flags_sticky {s t : State} (h : StatusMove s t) {n : Nat}
    (hn : s.flags.getLsbD n = true) : t.flags.getLsbD n = true := by
  cases h with
  | quiet _ flags _ => rw [flags]; exact hn
  | failed _ _ flags _ => rw [flags]; exact hn
  | succeeded _ _ _ flags _ => rw [flags]; exact getLsbD_or_of_left hn

/-- No bit of `ERR` is cleared. -/
theorem StatusMove.err_sticky {s t : State} (h : StatusMove s t) {n : Nat}
    (hn : s.err.getLsbD n = true) : t.err.getLsbD n = true := by
  cases h with
  | quiet err _ _ => rw [err]; exact hn
  | failed _ err _ _ => rw [err]; exact getLsbD_or_of_left hn
  | succeeded _ _ err _ _ => rw [err]; exact hn

/-- The status byte of the answer says which register may have changed: no error code is 0. -/
theorem StatusMove.by_status {s t : State} (h : StatusMove s t) {p : Packet}
    (hp : t.responses = s.responses ++ [p]) :
    (p.first = 0 → t.err = s.err) ∧ (p.first ≠ 0 → t.flags = s.flags) := by
  have isAnswer {q : Packet} (hq : t.responses = s.responses ++ [q]) : q = p := by
    simpa using hq.symm.trans hp
  cases h with
  | quiet err flags _ => exact ⟨fun _ => err, fun _ => flags⟩
  | failed e _ flags answer =>
    obtain rfl := isAnswer answer
    exact ⟨fun hzero => absurd hzero (code_ne_zero e), fun _ => flags⟩
  | succeeded _ d err _ answer =>
    obtain rfl := isAnswer answer
    exact ⟨fun _ => err, absurd rfl⟩

/-- Settles O14: a step makes one of the three moves. -/
theorem statusBitsAreSticky : Obligations.StatusBitsAreSticky := by
  intro s t h
  have hmove := step_statusMove h
  exact ⟨fun _ => hmove.err_sticky, fun _ => hmove.flags_sticky, fun _ => hmove.by_status⟩

end Sys2Proof.Machine
end

section
/-! PROOF. The access table (R36), and the snapshot kept until the next capture (R25, R123). -/

namespace Sys2Proof.Machine

/-- The columns of the access table of R36: what changed names the commands that may have changed
it. -/
structure AccessKept (i : Instr) (s t : State) : Prop where
  pe : t.pe ≠ s.pe → writesEngine i
  prime : t.prime ≠ s.prime → writesSnapshot i
  seq : t.seq ≠ s.seq → primesPacket i
  T : t.T ≠ s.T → (∃ k, i = .abSetKey k) ∨ i = .abNewSend ∨ (∃ n r, i = .abNewRecv n r) ∨
    ∃ m, i = .abCombine m
  PT : t.PT ≠ s.PT → ∃ k, i = .abSetKey k
  counters : t.aseq ≠ s.aseq ∨ t.roll ≠ s.roll →
    i = .abNewSeq ∨ i = .abNewSend ∨ ∃ n r, i = .abNewRecv n r
  flags : t.flags ≠ s.flags → writesSnapshot i ∨ ∃ k, i = .abSetKey k
  rng : t.rng ≠ s.rng → i = .csNewSeq ∨ i = .abNewSeq

/-- Each form of effect keeps to its row of the table. -/
theorem Writes.accessKept {i : Instr} {s u : State} (h : Writes s i u) : AccessKept i s u := by
  cases h with
  | nothing => constructor <;> simp
  | engine e unit => constructor <;> simp [unit]
  | packet e v left unit inRange draw =>
    have hpe := writesEngine_of_primesPacket unit
    constructor <;> simp [unit, hpe]
    exact fun hleft => .inl (draw hleft)
  | capture => constructor <;> simp [writesSnapshot]
  | csKey => constructor <;> simp [writesSnapshot, writesEngine, isPeOrCs, Instr.opcode]
  | abKey => constructor <;> simp
  | abDraw => constructor <;> simp
  | abPacket t n r keyed kept unit =>
    rcases unit with rfl | ⟨m, q, rfl⟩ <;> constructor <;> simp
  | abPass => constructor <;> simp

theorem exec_accessKept {i : Instr} {s t : State} (h : exec i s = .next t) : AccessKept i s t := by
  rcases exec_cases h with ⟨e, rfl⟩ | ⟨k, -, rfl⟩ | ⟨d, u, he, rfl⟩
  · constructor <;> simp
  · constructor <;> simp
  · obtain ⟨pe, prime, seq, T, PT, counters, flags, rng⟩ := (effect_writes he).accessKept
    exact ⟨pe, prime, seq, T, PT, counters, flags, rng⟩

theorem exec_commands {i : Instr} {s t : State} (h : exec i s = .next t) :
    t.commands = s.commands := by
  rcases exec_cases h with ⟨e, rfl⟩ | ⟨k, -, rfl⟩ | ⟨d, u, he, rfl⟩
  · rfl
  · rfl
  · obtain ⟨-, -, -, hcommands⟩ := effect_frame he
    exact hcommands

/-- Settles O22: the table is kept by every form of effect, and an error or a hold changes none of
its columns. -/
theorem accessTable : Obligations.AccessTable := by
  intro i s t h
  obtain ⟨pe, prime, seq, T, PT, counters, flags, rng⟩ := exec_accessKept h
  exact ⟨pe, prime, seq, T, PT, counters, flags, rng, exec_commands h⟩

/-- A command that does not write the snapshot keeps it, and `PRIME_VALID` with it. -/
theorem exec_keeps_snapshot {i : Instr} {s t : State} {e : Engine} (hi : ¬ writesSnapshot i)
    (h : exec i s = .next t) (hs : s.prime = some e ∧ s.flags.getLsbD 2 = true) :
    t.prime = some e ∧ t.flags.getLsbD 2 = true := by
  obtain ⟨hprime, hvalid⟩ := hs
  have hkept : t.prime = s.prime := by
    by_contra hne
    exact hi ((exec_accessKept h).prime hne)
  exact ⟨hkept.trans hprime, (exec_statusMove h).flags_sticky hvalid⟩

theorem execAll_cons_next {i : Instr} {is : List Instr} {s u : State}
    (h : execAll (i :: is) s = .next u) : ∃ t, exec i s = .next t ∧ execAll is t = .next u := by
  unfold execAll at h
  cases hx : exec i s with
  | next t => exact ⟨t, rfl, by simpa [hx] using h⟩
  | fault f => simp [hx] at h
  | refused r => simp [hx] at h

theorem execAll_keeps_snapshot {is : List Instr} (his : ∀ i ∈ is, ¬ writesSnapshot i)
    {s u : State} {e : Engine} (h : execAll is s = .next u)
    (hs : s.prime = some e ∧ s.flags.getLsbD 2 = true) :
    u.prime = some e ∧ u.flags.getLsbD 2 = true := by
  induction is generalizing s with
  | nil => cases h; exact hs
  | cons i is ih =>
    obtain ⟨t, hi, hrest⟩ := execAll_cons_next h
    obtain ⟨hhead, htail⟩ := List.forall_mem_cons.1 his
    exact ih htail hrest (exec_keeps_snapshot hhead hi hs)

/-- Settles O39: `PE.SETPRIME` leaves the live engine in the snapshot with `PRIME_VALID` set, the
commands between keep both, and `PE.GETPRIME` restores what it finds. -/
theorem primingIsolation : Obligations.PrimingIsolation := by
  intro s s1 s2 is hset his hall
  cases hset
  have hvalid : (s.flags ||| 0x04).getLsbD 2 = true := by
    rw [BitVec.getLsbD_or, Bool.or_eq_true]
    exact .inr (by decide)
  obtain ⟨hprime, hflag⟩ := execAll_keeps_snapshot his hall (e := s.pe) ⟨rfl, hvalid⟩
  exact ⟨_, peGetPrime_ready hflag hprime, rfl, rfl⟩

end Sys2Proof.Machine
end

section
/-! PROOF. The two units are blind to each other (R36, R135, R161, R182): a command does the same from any two states that its own unit cannot tell apart. -/

namespace Sys2Proof.Machine

/-- What the commands of the Alternate Backend may read (R36). -/
structure AbView where
  T : Option Table
  PT : Option Table
  aseq : BitVec 16
  roll : Byte
  keyed : Bool
  rng : List Byte

def State.abView (s : State) : AbView := ⟨s.T, s.PT, s.aseq, s.roll, s.abKeyed, s.rng⟩

/-- What the commands of the engine and the session may read (R36). -/
structure EngineView where
  pe : Engine
  prime : Option Engine
  seq : BitVec 24
  keyed : Bool
  valid : Bool
  nonceBytes : NonceBytes
  rng : List Byte

def State.engineView (s : State) : EngineView :=
  ⟨s.pe, s.prime, s.seq, s.csKeyed, s.primeValid, s.nonceBytes, s.rng⟩

/-- Two outcomes are alike, from states with the responses `l` and `l'`: they leave states with the
same view and add the same answer, or they stop for the same reason. -/
def Alike {α : Type} (view : State → α) (l l' : List Packet) :
    Host.Outcome State Fault Refusal → Host.Outcome State Fault Refusal → Prop
  | .next t, .next t' => view t' = view t ∧ ∃ a, t.responses = l ++ a ∧ t'.responses = l' ++ a
  | .fault f, .fault f' => f' = f
  | .refused r, .refused r' => r' = r
  | _, _ => False

/-- An outcome alike to one that goes on goes on too. -/
theorem Alike.next {α : Type} {view : State → α} {l l' : List Packet} {t : State}
    {o : Host.Outcome State Fault Refusal} (h : Alike view l l' (.next t) o) :
    ∃ t', o = .next t' ∧ view t' = view t ∧
      ∃ a, t.responses = l ++ a ∧ t'.responses = l' ++ a := by
  cases o with
  | next t' => exact ⟨t', rfl, h⟩
  | fault f => exact h.elim
  | refused r => exact h.elim

theorem alike_respond {α : Type} {view : State → α} {u u' : State} (d : List Byte)
    (h : view (respond d u') = view (respond d u)) :
    Alike view u.responses u'.responses (.next (respond d u)) (.next (respond d u')) :=
  ⟨h, [⟨0x00, d⟩], rfl, rfl⟩

theorem alike_raise {α : Type} {view : State → α} {s s' : State} (e : Error)
    (h : view (raise e s') = view (raise e s)) :
    Alike view s.responses s'.responses (.next (raise e s)) (.next (raise e s')) :=
  ⟨h, [⟨e.code, []⟩], rfl, rfl⟩

theorem alike_hold {α : Type} {view : State → α} {s s' : State} (k : Held)
    (h : view (hold k s') = view (hold k s)) :
    Alike view s.responses s'.responses (.next (hold k s)) (.next (hold k s')) :=
  ⟨h, [], (List.append_nil _).symm, (List.append_nil _).symm⟩

/-! ### The Alternate Backend -/

theorem abView_eq_iff {s t : State} : t.abView = s.abView ↔
    t.T = s.T ∧ t.PT = s.PT ∧ t.aseq = s.aseq ∧ t.roll = s.roll ∧ t.abKeyed = s.abKeyed ∧
      t.rng = s.rng := by
  simp only [State.abView, AbView.mk.injEq]

/-- A state with the view of `s` is a state with those fields of `s` put in. -/
theorem exists_eq_of_abView {s t : State} (h : t.abView = s.abView) : ∃ o : State,
    t = { o with T := s.T, PT := s.PT, aseq := s.aseq, roll := s.roll, rng := s.rng } := by
  obtain ⟨hT, hPT, haseq, hroll, -, hrng⟩ := abView_eq_iff.1 h
  exact ⟨t, by rw [← hT, ← hPT, ← haseq, ← hroll, ← hrng]⟩

/-- A success that leaves the same values in the backend and answers the same. -/
theorem alike_abWrite {s o : State} (hkeyed : o.abKeyed = s.abKeyed) (d : List Byte)
    (T PT : Option Table) (n : BitVec 16) (r : Byte) (left : List Byte) :
    Alike State.abView s.responses o.responses
      (.next (respond d { s with T := T, PT := PT, aseq := n, roll := r, rng := left }))
      (.next (respond d { o with T := T, PT := PT, aseq := n, roll := r, rng := left })) :=
  alike_respond d (abView_eq_iff.2 ⟨rfl, rfl, rfl, rfl, hkeyed, rfl⟩)

theorem setAbKeyed_abKeyed (s : State) : (setAbKeyed s).abKeyed = true := by
  simp [State.abKeyed]

/-- The commands with an opcode `0x4_`. -/
theorem isAb_cases {i : Instr} (h : isAb i) :
    (∃ k, i = .abSetKey k) ∨ i = .abNewSeq ∨ i = .abNewSend ∨ (∃ n r, i = .abNewRecv n r) ∨
      (∃ m, i = .abCombine m) ∨ i = .abRdSeq := by
  cases i <;> simp [isAb, Instr.opcode] at h ⊢

/-- An AB command goes the same way from two states with the same view: it makes the same checks,
and writes the same values. -/
theorem exec_alike_of_abView {i : Instr} (hi : isAb i) {s s' : State}
    (h : s'.abView = s.abView) :
    Alike State.abView s.responses s'.responses (exec i s) (exec i s') := by
  obtain ⟨-, -, -, -, hkeyed, -⟩ := abView_eq_iff.1 h
  obtain ⟨o, rfl⟩ := exists_eq_of_abView h
  rcases isAb_cases hi with ⟨k, rfl⟩ | rfl | rfl | ⟨n, r, rfl⟩ | ⟨m, rfl⟩ | rfl
  · simp only [exec, execAbSetKey]
    split_ifs
    · exact alike_raise _ h
    · have hset (u u' : State) : (setAbKeyed u').abKeyed = (setAbKeyed u).abKeyed := by
        simp only [setAbKeyed_abKeyed]
      exact alike_respond _ (abView_eq_iff.2 ⟨rfl, rfl, rfl, rfl, hset _ _, rfl⟩)
  · simp only [exec, execAbNewSeq, takeRng_eq, hkeyed]
    split_ifs
    · exact alike_raise _ h
    · exact alike_abWrite hkeyed _ _ _ _ _ _
    · exact alike_hold _ h
  · simp only [exec, execAbNewSend, hkeyed]
    split_ifs
    · exact alike_raise _ h
    · cases s.PT with
      | none => rfl
      | some t => exact alike_abWrite hkeyed _ _ _ _ _ _
  · simp only [exec, execAbNewRecv, hkeyed]
    split_ifs
    · exact alike_raise _ h
    · cases s.PT with
      | none => rfl
      | some t => exact alike_abWrite hkeyed _ _ _ _ _ _
  · simp only [exec, execAbCombine, hkeyed]
    split_ifs
    · exact alike_raise _ h
    · cases s.T with
      | none => rfl
      | some t => exact alike_abWrite hkeyed _ _ _ _ _ _
  · exact alike_respond _ h

/-- Settles O23: the hypotheses are equality of the backend's views. -/
theorem abBlindToEngine : Obligations.AbBlindToEngine := by
  intro i s s' t hi hT hPT haseq hroll hkeyed hrng ht
  have halike := exec_alike_of_abView hi (abView_eq_iff.2 ⟨hT, hPT, haseq, hroll, hkeyed, hrng⟩)
  rw [ht] at halike
  obtain ⟨t', ht', hview, hanswer⟩ := halike.next
  obtain ⟨hT', hPT', haseq', hroll', hkeyed', hrng'⟩ := abView_eq_iff.1 hview
  exact ⟨t', ht', hT', hPT', haseq', hroll', hkeyed', hrng', hanswer⟩

/-! ### The engine and the session -/

theorem engineView_eq_iff {s t : State} : t.engineView = s.engineView ↔
    t.pe = s.pe ∧ t.prime = s.prime ∧ t.seq = s.seq ∧ t.csKeyed = s.csKeyed ∧
      t.primeValid = s.primeValid ∧ t.nonceBytes = s.nonceBytes ∧ t.rng = s.rng := by
  simp only [State.engineView, EngineView.mk.injEq]

/-- A state with the view of `s` is a state with those fields of `s` put in. -/
theorem exists_eq_of_engineView {s t : State} (h : t.engineView = s.engineView) : ∃ o : State,
    t = { o with
      pe := s.pe, prime := s.prime, seq := s.seq, nonceBytes := s.nonceBytes, rng := s.rng } := by
  obtain ⟨hpe, hprime, hseq, -, -, hnonce, hrng⟩ := engineView_eq_iff.1 h
  exact ⟨t, by rw [← hpe, ← hprime, ← hseq, ← hnonce, ← hrng]⟩

/-- A success that leaves the same values in the engine and the session and answers the same. -/
theorem alike_engineWrite {s o : State} (hkeyed : o.csKeyed = s.csKeyed)
    (hvalid : o.primeValid = s.primeValid) (d : List Byte) (e : Engine) (p : Option Engine)
    (v : BitVec 24) (nb : NonceBytes) (left : List Byte) :
    Alike State.engineView s.responses o.responses
      (.next (respond d { s with pe := e, prime := p, seq := v, nonceBytes := nb, rng := left }))
      (.next (respond d { o with pe := e, prime := p, seq := v, nonceBytes := nb, rng := left })) :=
  alike_respond d (engineView_eq_iff.2 ⟨rfl, rfl, rfl, hkeyed, hvalid, rfl, rfl⟩)

theorem setPrimeValid_primeValid (s : State) : (setPrimeValid s).primeValid = true := by
  simp [State.primeValid]
theorem setPrimeValid_csKeyed (s : State) : (setPrimeValid s).csKeyed = s.csKeyed := by
  simp [State.csKeyed]
theorem setCsKeyed_csKeyed (s : State) : (setCsKeyed s).csKeyed = true := by
  simp [State.csKeyed]

/-- A PE or CS command goes the same way from two states with the same view: it makes the same
checks, and writes the same values. -/
theorem exec_alike_of_engineView {i : Instr} (hi : isPeOrCs i) {s s' : State}
    (h : s'.engineView = s.engineView) :
    Alike State.engineView s.responses s'.responses (exec i s) (exec i s') := by
  obtain ⟨-, -, -, hkeyed, hvalid, -, -⟩ := engineView_eq_iff.1 h
  obtain ⟨o, rfl⟩ := exists_eq_of_engineView h
  have hset (u u' : State) : (setPrimeValid u').primeValid = (setPrimeValid u).primeValid := by
    simp only [setPrimeValid_primeValid]
  cases i
  case peInit => exact alike_engineWrite hkeyed hvalid _ _ _ _ _ _
  case peAbsorb p => exact alike_engineWrite hkeyed hvalid _ _ _ _ _ _
  case peAbsorbStop => exact alike_engineWrite hkeyed hvalid _ _ _ _ _ _
  case peShuffle => exact alike_engineWrite hkeyed hvalid _ _ _ _ _ _
  case peDrip => exact alike_engineWrite hkeyed hvalid _ _ _ _ _ _
  case peSqueeze n => exact alike_engineWrite hkeyed hvalid _ _ _ _ _ _
  case peSetPrime =>
    have hcs : (setPrimeValid o).csKeyed = (setPrimeValid s).csKeyed := by
      rw [setPrimeValid_csKeyed, setPrimeValid_csKeyed]
      exact hkeyed
    exact alike_respond _ (engineView_eq_iff.2 ⟨rfl, rfl, rfl, hcs, hset _ _, rfl, rfl⟩)
  case peGetPrime =>
    simp only [exec, execPeGetPrime, getPrime, hvalid]
    split_ifs
    · exact alike_raise _ h
    · cases s.prime with
      | none => rfl
      | some e => exact alike_engineWrite hkeyed hvalid _ _ _ _ _ _
  case peHash n m => exact alike_engineWrite hkeyed hvalid _ _ _ _ _ _
  case peMac n k m => exact alike_engineWrite hkeyed hvalid _ _ _ _ _ _
  case csSetKey k =>
    simp only [exec, execCsSetKey]
    split_ifs
    · exact alike_raise _ h
    · have hcs (u u' : State) : (setPrimeValid (setCsKeyed u')).csKeyed =
          (setPrimeValid (setCsKeyed u)).csKeyed := by
        simp only [setPrimeValid_csKeyed, setCsKeyed_csKeyed]
      exact alike_respond _
        (engineView_eq_iff.2 ⟨rfl, rfl, rfl, hcs _ _, hset _ _, rfl, rfl⟩)
  case csNewSeq =>
    simp only [exec, execCsNewSeq, takeRng_eq, noncePrime, getPrime, hkeyed]
    split_ifs
    · exact alike_raise _ h
    · cases s.prime with
      | none => rfl
      | some e => exact alike_engineWrite hkeyed hvalid _ _ _ _ _ _
    · exact alike_hold _ h
  case csNewSend =>
    simp only [exec, execCsNewSend, noncePrime, getPrime, hkeyed]
    split_ifs
    · exact alike_raise _ h
    · cases s.prime with
      | none => rfl
      | some e => exact alike_engineWrite hkeyed hvalid _ _ _ _ _ _
  case csNewRecv n =>
    simp only [exec, execCsNewRecv, noncePrime, getPrime, hkeyed]
    split_ifs
    · exact alike_raise _ h
    · cases s.prime with
      | none => rfl
      | some e => exact alike_engineWrite hkeyed hvalid _ _ _ _ _ _
  case csEncrypt m =>
    simp only [exec, execCsEncrypt, hkeyed]
    split_ifs
    · exact alike_raise _ h
    · exact alike_engineWrite hkeyed hvalid _ _ _ _ _ _
  case csDecrypt m =>
    simp only [exec, execCsDecrypt, hkeyed]
    split_ifs
    · exact alike_raise _ h
    · exact alike_engineWrite hkeyed hvalid _ _ _ _ _ _
  case csRdSeq => exact alike_respond _ h
  all_goals simp [isPeOrCs, Instr.opcode] at hi

/-- Settles O24: the hypotheses are equality of the engine's and the session's views. -/
theorem engineBlindToAb : Obligations.EngineBlindToAb := by
  intro i s s' t hi hpe hprime hseq hkeyed hvalid hnonce hrng ht
  have halike := exec_alike_of_engineView hi
    (engineView_eq_iff.2 ⟨hpe, hprime, hseq, hkeyed, hvalid, hnonce, hrng⟩)
  rw [ht] at halike
  obtain ⟨t', ht', hview, hanswer⟩ := halike.next
  obtain ⟨hpe', hprime', hseq', hkeyed', hvalid', -, hrng'⟩ := engineView_eq_iff.1 hview
  exact ⟨t', ht', hpe', hprime', hseq', hkeyed', hvalid', hrng', hanswer⟩

end Sys2Proof.Machine
end

section
/-! PROOF. The read commands (R157, R179, R190). -/

namespace Sys2Proof.Machine

/-- Settles O60: the answers are the bytes of the registers, whose big-endian value they have. -/
theorem readCommandsReport : Obligations.ReadCommandsReport := by
  refine ⟨fun s hs => ?_, fun s => ?_, fun s => rfl⟩
  · exact ⟨seqBytes s.nonceBytes s.seq, seqBytes_length _ _, beNat_seqBytes hs, rfl⟩
  · exact ⟨_, _, beNat_bytesBe16 s.aseq, rfl⟩

end Sys2Proof.Machine
end

section
/-! PROOF. How a command runs and ends: a step runs the command its packet decodes to, which ends in one response or in the RNG hold (R61, R68, R86, R212). -/

namespace Sys2Proof.Machine

/-- Settles O6: the branch of `step` for an accepted packet. -/
theorem stepRunsDecoded : Obligations.StepRunsDecoded :=
  fun _ _ _ _ hidle hport hdecode => step_of_decode_ok hidle hport hdecode

/-- Settles O8: an error and a success each put one packet on the response port, since no effect
touches that port, and a hold puts none. -/
theorem oneResponsePerCommand : Obligations.OneResponsePerCommand := by
  intro i s t h
  rcases exec_cases h with ⟨e, rfl⟩ | ⟨k, hk, rfl⟩ | ⟨d, u, he, rfl⟩
  · exact .inl ⟨raise_held s e, _, raise_responses s e, .inr ⟨e, rfl⟩⟩
  · exact .inr ⟨k, hk, rfl⟩
  · obtain ⟨hresponses, -, -, -⟩ := effect_frame he
    exact .inl ⟨respond_held u d, ⟨0x00, d⟩, by rw [respond_responses, hresponses], .inl rfl⟩

end Sys2Proof.Machine
end

section
/-! PROOF. One absorbed byte, below, across and at the threshold (R116, R117). -/

namespace Sys2Proof.Machine

/-- A byte whose two nibbles are both absorbed without a shuffle. -/
theorem Engine.absorbByte_noShuffle {e : Engine} (h127 : e.a ≠ 127) (h128 : e.a ≠ 128) (b : Byte) :
    e.absorbByte b = { e with
      S := (e.S.swap e.a (absorbTarget (lowNibble b))).swap (e.a + 1) (absorbTarget (highNibble b))
      a := e.a + 2 } := by
  have hnext : e.a + 1 ≠ 128 := fun h => h127 (add_right_cancel (b := (1 : Byte)) h)
  have htwo : e.a + 1 + 1 = e.a + 2 := BitVec.add_assoc e.a 1 1
  rw [Engine.absorbByte, Engine.absorbNibble_noShuffle h128, Engine.absorbNibble_noShuffle hnext,
    htwo]

/-- A byte whose low nibble is the 128th: the shuffle stands between its nibbles (R117). -/
theorem Engine.absorbByte_across {e : Engine} (h : e.a = 127) (b : Byte) :
    e.absorbByte b =
      let f := { e with S := e.S.swap 127 (absorbTarget (lowNibble b)), a := 128 }.shuffle
      { f with S := f.S.swap 0 (absorbTarget (highNibble b)), a := 1 } := by
  have hlow : e.absorbNibble (lowNibble b) =
      { e with S := e.S.swap 127 (absorbTarget (lowNibble b)), a := 128 } := by
    rw [Engine.absorbNibble_noShuffle (by rw [h]; decide), h]
    rfl
  rw [Engine.absorbByte, hlow, Engine.absorbNibble_full rfl]

/-- A byte at the threshold: the shuffle stands before both nibbles (R116). -/
theorem Engine.absorbByte_full {e : Engine} (h : e.a = 128) (b : Byte) :
    e.absorbByte b = { e.shuffle with
      S := (e.shuffle.S.swap 0 (absorbTarget (lowNibble b))).swap 1 (absorbTarget (highNibble b))
      a := 2 } := by
  have hone : (1 : Byte) ≠ 128 := by decide
  rw [Engine.absorbByte, Engine.absorbNibble_full h, Engine.absorbNibble_noShuffle hone]
  rfl

theorem peAbsorb_byte (s : State) (b : Byte) :
    exec (.peAbsorb [b]) s = .next (respond [] { s with pe := s.pe.absorbByte b }) := rfl

/-- Settles O29: the three clauses are the three cases of one absorbed byte. -/
theorem peAbsorbOneByte : Obligations.PeAbsorbOneByte := by
  refine ⟨fun s b h127 h128 => ?_, fun s b h => ⟨_, rfl, ?_⟩, fun s b h => ⟨_, rfl, ?_⟩⟩ <;>
    rw [peAbsorb_byte, ← absorbTarget_low, ← absorbTarget_high]
  · rw [Engine.absorbByte_noShuffle h127 h128]
    rfl
  · rw [Engine.absorbByte_across h]
    rfl
  · rw [Engine.absorbByte_full h]
    rfl

end Sys2Proof.Machine
end

section
/-! PROOF. The commands that start a packet of a session: where the number comes from, and the engine primed with its bytes (R150, R152 to R154, R175). -/

namespace Sys2Proof.Machine

/-- Settles O44: the drawn bytes assemble to the number whose nonce they are. -/
theorem csNewSeqDraws : Obligations.CsNewSeqDraws := by
  intro s e bytes rest hkeyed hprime hlength hrng
  obtain ⟨v, hv, hnumber⟩ := seqOfBytes_of_length hlength
  exact ⟨v, _, hnumber, rfl, csNewSeq_ready hkeyed hprime hrng hv⟩

/-- Settles O46: the successor is in range, so its nonce has its value. -/
theorem csNewSendCounts : Obligations.CsNewSendCounts := by
  intro s e hkeyed hprime
  exact ⟨seqSucc s.nonceBytes s.seq, _, _, seqSucc_toNat _ _, seqBytes_length _ _,
    beNat_seqBytes (seqSucc_lt _ _), rfl, csNewSend_ready hkeyed hprime⟩

/-- Settles O47: a value in range is written as it is. -/
theorem csNewRecvSets : Obligations.CsNewRecvSets := by
  intro s e v hkeyed hprime hrange
  have hready := csNewRecv_ready hkeyed hprime v
  rw [truncSeq_of_lt hrange] at hready
  exact ⟨seqBytes s.nonceBytes v, _, seqBytes_length _ _, beNat_seqBytes hrange, rfl, hready⟩

/-- Settles O55: `ASEQ` is the number of the first two bytes, and the third is `ROLL` as it is. -/
theorem abNewSeqDraws : Obligations.AbNewSeqDraws := by
  intro s b0 b1 b2 rest hkeyed hrng
  exact ⟨be16 b0 b1, (beNat_pair b0 b1).symm, abNewSeq_ready hkeyed hrng⟩

end Sys2Proof.Machine
end

section
/-! PROOF. The formats (R81): each parser accepts exactly the bytes that its format lays out, and gives the command with the operands laid out there. -/

namespace Sys2Proof

theorem parseN_ok_iff {i j : Instr} {bytes : List Byte} :
    parseN i bytes = .ok j ↔ bytes = [] ∧ i = j := by
  cases bytes <;> simp [parseN]

theorem parseP_ok_iff {f : List Byte → Instr} {j : Instr} {bytes : List Byte} :
    parseP f bytes = .ok j ↔ f bytes = j := by
  simp [parseP]

theorem parseC_ok_iff {f : BitVec 16 → Instr} {j : Instr} {bytes : List Byte} :
    parseC f bytes = .ok j ↔ ∃ v, bytes = bytesBe16 v ∧ f v = j := by
  constructor
  · intro h
    unfold parseC at h
    split at h
    · cases h
      exact ⟨_, (bytes_be16 _ _).symm, rfl⟩
    · cases h
  · rintro ⟨v, rfl, rfl⟩
    simp only [bytesBe16, parseC, be16_bytes]

theorem parseH_ok_iff {f : BitVec 16 → List Byte → Instr} {j : Instr} {bytes : List Byte} :
    parseH f bytes = .ok j ↔ ∃ v message, bytes = bytesBe16 v ++ message ∧ f v message = j := by
  constructor
  · intro h
    unfold parseH at h
    split at h
    · cases h
      exact ⟨_, _, by rw [bytes_be16]; rfl, rfl⟩
    · cases h
  · rintro ⟨v, message, rfl, rfl⟩
    simp only [bytesBe16, List.cons_append, List.nil_append, parseH, be16_bytes]

theorem parseM_ok_iff {f : BitVec 16 → List Byte → List Byte → Instr} {j : Instr}
    {bytes : List Byte} :
    parseM f bytes = .ok j ↔ ∃ v key message, key.length < 65536 ∧
      bytes = bytesBe16 v ++ bytesBe16 (BitVec.ofNat 16 key.length) ++ key ++ message ∧
      f v key message = j := by
  constructor
  · intro h
    unfold parseM at h
    split at h
    · rename_i o1 o0 k1 k0 body
      split at h
      · rename_i hfits
        cases h
        have hlength : (body.take (be16 k1 k0).toNat).length = (be16 k1 k0).toNat := by
          rw [List.length_take, Nat.min_eq_left hfits]
        refine ⟨_, _, _, hlength.trans_lt (be16 k1 k0).isLt, ?_, rfl⟩
        rw [hlength, BitVec.ofNat_toNat, BitVec.setWidth_eq, bytes_be16, bytes_be16,
          List.append_assoc, List.take_append_drop]
        rfl
      · cases h
    · cases h
  · rintro ⟨v, key, message, hkey, rfl, rfl⟩
    exact parseM_layout f v key message hkey

theorem parseQ_ok_iff {nb : NonceBytes} {f : BitVec 24 → Instr} {j : Instr} {bytes : List Byte} :
    parseQ nb f bytes = .ok j ↔ ∃ v, v.toNat < nb.seqMod ∧ bytes = seqBytes nb v ∧ f v = j := by
  constructor
  · intro h
    unfold parseQ at h
    split at h
    · rename_i v hv
      cases h
      obtain ⟨hbytes, hrange⟩ := seqBytes_seqOfBytes hv
      exact ⟨v, hrange, hbytes.symm, rfl⟩
    · cases h
  · rintro ⟨v, hrange, rfl, rfl⟩
    simp only [parseQ, seqOfBytes_seqBytes nb v hrange]

theorem parseR_ok_iff {f : BitVec 16 → Byte → Instr} {j : Instr} {bytes : List Byte} :
    parseR f bytes = .ok j ↔ ∃ v roll, bytes = bytesBe16 v ++ [roll] ∧ f v roll = j := by
  constructor
  · intro h
    unfold parseR at h
    split at h
    · cases h
      exact ⟨_, _, by rw [bytes_be16]; rfl, rfl⟩
    · cases h
  · rintro ⟨v, roll, rfl, rfl⟩
    simp only [bytesBe16, List.cons_append, List.nil_append, parseR, be16_bytes]

/-- Format M, too, is refused only as malformed (R82). -/
theorem parseM_error_eq {f : BitVec 16 → List Byte → List Byte → Instr} {bytes : List Byte}
    {e : Error} (h : parseM f bytes = .error e) : e = .malformedCommand := by
  unfold parseM at h
  split at h
  · split at h <;> cases h
    rfl
  · cases h
    rfl

end Sys2Proof
end

section
/-! PROOF. The opcode table (R86, R87): the decoder runs the parser of one row, and both directions of the encoding follow row by row. -/

namespace Sys2Proof.Machine

/-- The rows of the opcode table (R86) on a core with `NONCE_BYTES = nb`: which parser an opcode
selects, by format; an opcode without a row is refused whatever follows it (R87). -/
inductive OpcodeRow (nb : NonceBytes) (op : Byte) : (List Byte → Except Error Instr) → Prop
  /-- The 13 commands of format N. -/
  | bare (i : Instr) (opcode : op.toNat = i.opcode.toNat) (layout : i.operandBytes nb = [])
      (wf : i.wellFormed nb = true) : OpcodeRow nb op (parseN i)
  /-- The six commands of format P. -/
  | payload (f : List Byte → Instr) (opcode : ∀ bytes, op.toNat = (f bytes).opcode.toNat)
      (layout : ∀ bytes, (f bytes).operandBytes nb = bytes)
      (wf : ∀ bytes, (f bytes).wellFormed nb = true) : OpcodeRow nb op (parseP f)
  | squeeze (opcode : op.toNat = 0x06) : OpcodeRow nb op (parseC .peSqueeze)
  | hash (opcode : op.toNat = 0x09) : OpcodeRow nb op (parseH .peHash)
  | mac (opcode : op.toNat = 0x0A) : OpcodeRow nb op (parseM .peMac)
  | newRecv (opcode : op.toNat = 0x23) : OpcodeRow nb op (parseQ nb .csNewRecv)
  | abNewRecv (opcode : op.toNat = 0x43) : OpcodeRow nb op (parseR .abNewRecv)
  | absent (opcode : illegalOpcode op.toNat) : OpcodeRow nb op fun _ => .error .illegalCommand

/-- The decoder looks the opcode up and runs the parser of its row (R86). -/
theorem decode_row (nb : NonceBytes) (p : Packet) :
    ∃ parse, OpcodeRow nb p.first parse ∧ decode nb p = parse p.rest := by
  unfold decode
  split
  next op => exact ⟨_, .bare .peInit op rfl rfl, rfl⟩
  next op => exact ⟨_, .payload .peAbsorb (fun _ => op) (fun _ => rfl) (fun _ => rfl), rfl⟩
  next op => exact ⟨_, .bare .peAbsorbStop op rfl rfl, rfl⟩
  next op => exact ⟨_, .bare .peShuffle op rfl rfl, rfl⟩
  next op => exact ⟨_, .bare .peDrip op rfl rfl, rfl⟩
  next op => exact ⟨_, .squeeze op, rfl⟩
  next op => exact ⟨_, .bare .peSetPrime op rfl rfl, rfl⟩
  next op => exact ⟨_, .bare .peGetPrime op rfl rfl, rfl⟩
  next op => exact ⟨_, .hash op, rfl⟩
  next op => exact ⟨_, .mac op, rfl⟩
  next op => exact ⟨_, .payload .csSetKey (fun _ => op) (fun _ => rfl) (fun _ => rfl), rfl⟩
  next op => exact ⟨_, .bare .csNewSeq op rfl rfl, rfl⟩
  next op => exact ⟨_, .bare .csNewSend op rfl rfl, rfl⟩
  next op => exact ⟨_, .newRecv op, rfl⟩
  next op => exact ⟨_, .payload .csEncrypt (fun _ => op) (fun _ => rfl) (fun _ => rfl), rfl⟩
  next op => exact ⟨_, .payload .csDecrypt (fun _ => op) (fun _ => rfl) (fun _ => rfl), rfl⟩
  next op => exact ⟨_, .bare .csRdSeq op rfl rfl, rfl⟩
  next op => exact ⟨_, .payload .abSetKey (fun _ => op) (fun _ => rfl) (fun _ => rfl), rfl⟩
  next op => exact ⟨_, .bare .abNewSeq op rfl rfl, rfl⟩
  next op => exact ⟨_, .bare .abNewSend op rfl rfl, rfl⟩
  next op => exact ⟨_, .abNewRecv op, rfl⟩
  next op => exact ⟨_, .payload .abCombine (fun _ => op) (fun _ => rfl) (fun _ => rfl), rfl⟩
  next op => exact ⟨_, .bare .abRdSeq op rfl rfl, rfl⟩
  next op => exact ⟨_, .bare .sysRdStat op rfl rfl, rfl⟩
  next =>
    have hbyte := p.first.isLt
    have hillegal : illegalOpcode p.first.toNat := by
      simp only [imp_false] at *
      unfold illegalOpcode
      omega
    exact ⟨_, .absent hillegal, rfl⟩

/-- A packet is the encoding of a command when its opcode and its operand bytes are. -/
theorem encode_eq_of {nb : NonceBytes} {p : Packet} {i : Instr}
    (opcode : p.first.toNat = i.opcode.toNat) (operands : i.operandBytes nb = p.rest) :
    encode nb i = p := by
  obtain ⟨first, rest⟩ := p
  cases BitVec.eq_of_toNat_eq opcode
  cases operands
  rfl

/-- Settles O1: each command's layout is one that the parser of its row accepts. -/
theorem decodeOfEncode : Obligations.DecodeOfEncode := by
  intro nb i hwf
  cases i
  case peSqueeze cnt => exact parseC_ok_iff.2 ⟨cnt, rfl, rfl⟩
  case peHash outLen message => exact parseH_ok_iff.2 ⟨outLen, message, rfl, rfl⟩
  case peMac outLen key message =>
    exact parseM_ok_iff.2 ⟨outLen, key, message, of_decide_eq_true hwf, rfl, rfl⟩
  case csNewRecv seq => exact parseQ_ok_iff.2 ⟨seq, of_decide_eq_true hwf, rfl, rfl⟩
  case abNewRecv aseq roll => exact parseR_ok_iff.2 ⟨aseq, roll, rfl, rfl⟩
  -- The formats N and P have no field to assemble.
  all_goals rfl

/-- Settles O2: what the parser of a row accepts is the layout of the command it gives. -/
theorem encodeOfDecode : Obligations.EncodeOfDecode := by
  intro nb p i h
  obtain ⟨parse, hrow, hparse⟩ := decode_row nb p
  rw [hparse] at h
  cases hrow with
  | bare j opcode layout wf =>
    obtain ⟨hrest, rfl⟩ := parseN_ok_iff.1 h
    exact ⟨encode_eq_of opcode (layout.trans hrest.symm), wf⟩
  | payload f opcode layout wf =>
    obtain rfl := parseP_ok_iff.1 h
    exact ⟨encode_eq_of (opcode _) (layout _), wf _⟩
  | squeeze opcode =>
    obtain ⟨cnt, hrest, rfl⟩ := parseC_ok_iff.1 h
    exact ⟨encode_eq_of opcode hrest.symm, rfl⟩
  | hash opcode =>
    obtain ⟨outLen, message, hrest, rfl⟩ := parseH_ok_iff.1 h
    exact ⟨encode_eq_of opcode hrest.symm, rfl⟩
  | mac opcode =>
    obtain ⟨outLen, key, message, hkey, hrest, rfl⟩ := parseM_ok_iff.1 h
    exact ⟨encode_eq_of opcode hrest.symm, decide_eq_true hkey⟩
  | newRecv opcode =>
    obtain ⟨seq, hrange, hrest, rfl⟩ := parseQ_ok_iff.1 h
    exact ⟨encode_eq_of opcode hrest.symm, decide_eq_true hrange⟩
  | abNewRecv opcode =>
    obtain ⟨aseq, roll, hrest, rfl⟩ := parseR_ok_iff.1 h
    exact ⟨encode_eq_of opcode hrest.symm, rfl⟩
  | absent opcode => cases h

/-- Settles O3: each packet is the encoding of the command, which is well formed. -/
theorem specPacketsDecode : Obligations.SpecPacketsDecode :=
  ⟨decodeOfEncode .two (.peSqueeze 8) rfl,
    decodeOfEncode .two (.peMac 8 [0x6b, 0x65, 0x79] [0x41, 0x42, 0x43]) rfl,
    decodeOfEncode .two (.csNewRecv 0x1234) rfl,
    decodeOfEncode .three (.csNewRecv 0x123456) rfl,
    decodeOfEncode .two (.abNewRecv 0x1234 0x05) rfl,
    decodeOfEncode .two (.abCombine [0x48, 0x65, 0x6c, 0x6c, 0x6f]) rfl,
    decodeOfEncode .two .sysRdStat rfl⟩

/-- No command of the table has one of the 232 opcodes (R87). -/
theorem opcode_not_illegal (i : Instr) : ¬ illegalOpcode i.opcode.toNat := by
  cases i <;> simp [illegalOpcode, Instr.opcode]

/-- A row with a parser is that of a legal opcode, and its parser refuses a packet only for its
length (R82). -/
theorem OpcodeRow.illegalCommand_iff {nb : NonceBytes} {op : Byte}
    {parse : List Byte → Except Error Instr} (h : OpcodeRow nb op parse) (bytes : List Byte) :
    parse bytes = .error .illegalCommand ↔ illegalOpcode op.toNat := by
  have legal (i : Instr) (opcode : op.toNat = i.opcode.toNat)
      (refusal : parse bytes = .error .illegalCommand → Error.illegalCommand = .malformedCommand) :
      parse bytes = .error .illegalCommand ↔ illegalOpcode op.toNat :=
    iff_of_false (fun hparse => nomatch refusal hparse) (opcode ▸ opcode_not_illegal i)
  cases h with
  | bare i opcode => exact legal i opcode fun h => ((parseN_error _ _ _).1 h).1
  | payload f opcode => exact legal (f []) (opcode []) fun h => absurd h (parseP_error _ _ _)
  | squeeze opcode => exact legal (.peSqueeze 0) opcode fun h => ((parseC_error _ _ _).1 h).1
  | hash opcode => exact legal (.peHash 0 []) opcode fun h => ((parseH_error _ _ _).1 h).1
  | mac opcode => exact legal (.peMac 0 [] []) opcode parseM_error_eq
  | newRecv opcode => exact legal (.csNewRecv 0) opcode fun h => ((parseQ_error _ _ _ _).1 h).1
  | abNewRecv opcode => exact legal (.abNewRecv 0 0) opcode fun h => ((parseR_error _ _ _).1 h).1
  | absent opcode => exact iff_of_true rfl opcode

theorem decode_illegalCommand_iff (nb : NonceBytes) (p : Packet) :
    decode nb p = .error .illegalCommand ↔ illegalOpcode p.first.toNat := by
  obtain ⟨parse, hrow, hparse⟩ := decode_row nb p
  rw [hparse]
  exact hrow.illegalCommand_iff p.rest

/-- Settles O4: the step of an idle core raises what the decoder finds. -/
theorem illegalOpcodesRaise : Obligations.IllegalOpcodesRaise := by
  refine ⟨decode_illegalCommand_iff, fun s p rest hidle hport hillegal => ?_⟩
  rw [step_of_decode_error hidle hport ((decode_illegalCommand_iff _ p).2 hillegal), hidle]
  rfl

end Sys2Proof.Machine
end

section
/-! PROOF. How many data bytes a success answers with (R84). -/

namespace Sys2Proof.Machine

/-- The data of each effect has the length of the table of R84. -/
theorem effect_dataLength {i : Instr} {s u : State} {d : List Byte} (h : Effect i s d u) :
    d.length = dataLength s.nonceBytes i := by
  cases i
  case peSqueeze n => obtain ⟨rfl, -⟩ := h; exact Engine.squeeze_length _ _
  case peHash n m => obtain ⟨rfl, -⟩ := h; exact hashEngine_length _ _
  case peMac n k m => obtain ⟨rfl, -⟩ := h; exact macEngine_length _ _ _
  case csNewSend =>
    obtain ⟨-, rfl, h⟩ := h
    obtain ⟨e, -, rfl⟩ := noncePrime_some h
    exact seqBytes_length _ _
  case csEncrypt m => obtain ⟨-, rfl, -⟩ := h; exact Engine.cipher_length _ _ _
  case csDecrypt m => obtain ⟨-, rfl, -⟩ := h; exact Engine.cipher_length _ _ _
  case csRdSeq => obtain ⟨rfl, -⟩ := h; exact seqBytes_length _ _
  case abCombine m => obtain ⟨-, T, -, rfl, -⟩ := h; exact abPass_length _ _ _
  case abNewSend => obtain ⟨-, PT, -, rfl, -⟩ := h; rfl
  case peGetPrime => obtain ⟨-, e, -, rfl, -⟩ := h; rfl
  case csSetKey k => obtain ⟨-, rfl, -⟩ := h; rfl
  case csNewSeq => obtain ⟨-, -, rfl, -⟩ := h; rfl
  case csNewRecv n => obtain ⟨-, rfl, -⟩ := h; rfl
  case abSetKey k => obtain ⟨-, rfl, -⟩ := h; rfl
  case abNewSeq => obtain ⟨-, -, rfl, -⟩ := h; rfl
  case abNewRecv n r => obtain ⟨-, PT, -, rfl, -⟩ := h; rfl
  -- The data of the other commands is a list written out, of no, one or three bytes.
  all_goals obtain ⟨rfl, -⟩ := h; rfl

/-- Settles O9: of the three ways a command ends only the success answers with status 0. -/
theorem responseDataLengths : Obligations.ResponseDataLengths := by
  intro i s t d h hanswer
  rcases exec_cases h with ⟨e, rfl⟩ | ⟨k, -, rfl⟩ | ⟨d', u, he, rfl⟩
  · obtain ⟨hstatus, -⟩ : e.code = 0 ∧ [] = d := by simpa using hanswer
    exact absurd hstatus (code_ne_zero e)
  · simp at hanswer
  · obtain ⟨hresponses, -, -, -⟩ := effect_frame he
    have hdata : d' = d := by simpa [hresponses] using hanswer
    exact hdata ▸ effect_dataLength he

end Sys2Proof.Machine
end

section
/-! PROOF. The counters of the backend through `AB.NEWSEND` (R84, R176). -/

namespace Sys2Proof.Machine

theorem aseq_succ_toNat (v : BitVec 16) : (v + 1).toNat = (v.toNat + 1) % 65536 :=
  BitVec.toNat_add v 1

/-- `ASEQ` wraps to 0 from its greatest value only. -/
theorem aseq_succ_eq_zero_iff (v : BitVec 16) : v + 1 = 0 ↔ v.toNat = 65535 := by
  have hv := v.isLt
  rw [← BitVec.toNat_inj, aseq_succ_toNat]
  change (v.toNat + 1) % 65536 = 0 ↔ _
  omega

/-- The carry of `ASEQ` into `ROLL`, as numbers (R176). -/
theorem roll_carry_toNat (v : BitVec 16) (r : Byte) :
    (if v + 1 = 0 then r + 1 else r).toNat =
      if v.toNat = 65535 then (r.toNat + 1) % 256 else r.toNat := by
  simp only [aseq_succ_eq_zero_iff]
  split
  · exact BitVec.toNat_add r 1
  · rfl

/-- Settles O56: the counters of `abNewSend_ready` as numbers, `ASEQ` and its bytes and `ROLL`. -/
theorem abNewSendCounts : Obligations.AbNewSendCounts := by
  intro s PT hkeyed hPT
  exact ⟨s.aseq + 1, if s.aseq + 1 = 0 then s.roll + 1 else s.roll, _, _, aseq_succ_toNat _,
    roll_carry_toNat _ _, beNat_bytesBe16 _, abNewSend_ready hkeyed hPT⟩

end Sys2Proof.Machine
end

section
/-! PROOF. The engine's micro-operations (R111, R113, R114): `update` line by line, `whip` as an iterate, and `crush` pair by pair. -/

namespace Sys2Proof.Machine

/-- Settles O25: the lines of the rule, with the swap read entry by entry. -/
theorem updateFormulas : Obligations.UpdateFormulas := fun _ =>
  ⟨rfl, rfl, rfl, Table.read_swap _ _ _, rfl, rfl, rfl⟩

theorem Engine.updates_eq_iterate (n : Nat) (e : Engine) :
    Engine.updates n e = Engine.update^[n] e := by
  induction n generalizing e with
  | zero => rfl
  | succ n ih => exact ih e.update

theorem whipSteps_eq : whipSteps = 512 := by unfold whipSteps; rfl

/-- Settles O26: the updates leave `w` alone, so the one increment after them is of the old `w`. -/
theorem whipIs512Updates : Obligations.WhipIs512Updates := by
  refine fun e => ⟨?_, e.whip_i, e.whip_z, e.whip_a⟩
  rw [Engine.whip_eq, Engine.updates_w, Engine.updates_eq_iterate, whipSteps_eq]

/-! ### crush -/

theorem crushPairs_eq : crushPairs = 128 := by unfold crushPairs; rfl

/-- `u` holds the two entries of the pair `(p, 255 - p)` of `t`, the smaller one below (R114). -/
def PairOrdered (t u : Table) (p : Byte) : Prop :=
  (u.read p).toNat = min (t.read p).toNat (t.read (255 - p)).toNat ∧
    (u.read (255 - p)).toNat = max (t.read p).toNat (t.read (255 - p)).toNat

/-- `u` holds the two entries of the pair `(p, 255 - p)` where `t` does. -/
def PairKept (t u : Table) (p : Byte) : Prop :=
  u.read p = t.read p ∧ u.read (255 - p) = t.read (255 - p)

theorem PairKept.trans {t u v : Table} {p : Byte} (h : PairKept t u p) (h' : PairKept u v p) :
    PairKept t v p := by
  obtain ⟨hlow, hhigh⟩ := h
  obtain ⟨hlow', hhigh'⟩ := h'
  exact ⟨hlow'.trans hlow, hhigh'.trans hhigh⟩

theorem PairOrdered.of_kept_before {t u v : Table} {p : Byte} (h : PairKept t u p)
    (ho : PairOrdered u v p) : PairOrdered t v p := by
  obtain ⟨hlow, hhigh⟩ := h
  rwa [PairOrdered, hlow, hhigh] at ho

theorem PairOrdered.of_kept_after {t u v : Table} {p : Byte} (ho : PairOrdered t u p)
    (h : PairKept u v p) : PairOrdered t v p := by
  obtain ⟨hlow, hhigh⟩ := h
  rwa [PairOrdered, hlow, hhigh]

theorem crushPair_ordered (t : Table) (p : Byte) : PairOrdered t (crushPair t p) p := by
  have hne : 255 - p ≠ p := by bv_omega
  unfold PairOrdered crushPair
  split
  case isTrue h =>
    rw [BitVec.lt_def] at h
    simp only [Table.read_swap, if_pos, if_neg hne]
    omega
  case isFalse h =>
    rw [BitVec.lt_def] at h
    omega

theorem crushPair_keeps {p q : Byte} (hp : p.toNat < 128) (hq : q.toNat < 128) (hne : p ≠ q)
    (t : Table) : PairKept t (crushPair t q) p := by
  have hlow : p ≠ 255 - q := by bv_omega
  have hhigh : 255 - p ≠ q := by bv_omega
  have hboth : 255 - p ≠ 255 - q := by bv_omega
  unfold PairKept crushPair
  split
  · simp only [Table.read_swap, if_neg hne, if_neg hlow, if_neg hhigh, if_neg hboth, and_self]
  · exact ⟨rfl, rfl⟩

/-- The pass of `crush` over the pairs of a list of lower positions, in order. -/
def crushOver (ps : List Byte) (t : Table) : Table := ps.foldl crushPair t

/-- The lower positions of the 128 pairs (R114). -/
def lowerPositions : List Byte := (List.range 128).map (BitVec.ofNat 8)

theorem crushTable_eq (t : Table) : crushTable t = crushOver lowerPositions t := by
  rw [crushTable, crushPairs_eq, crushOver, lowerPositions, List.foldl_map]

theorem mem_lowerPositions {p : Byte} : p ∈ lowerPositions ↔ p.toNat < 128 := by
  rw [lowerPositions, List.mem_map]
  constructor
  · rintro ⟨n, hn, rfl⟩
    have hn := List.mem_range.1 hn
    rw [BitVec.toNat_ofNat]
    omega
  · intro h
    exact ⟨p.toNat, List.mem_range.2 h, by rw [BitVec.ofNat_toNat, BitVec.setWidth_eq]⟩

theorem lowerPositions_nodup : lowerPositions.Nodup := by
  refine List.Nodup.map_on (fun m hm n hn h => ?_) List.nodup_range
  have hm := List.mem_range.1 hm
  have hn := List.mem_range.1 hn
  have h := congrArg BitVec.toNat h
  rw [BitVec.toNat_ofNat, BitVec.toNat_ofNat] at h
  omega

/-- Pairs are disjoint, so a pass leaves the pairs alone that it does not visit. -/
theorem crushOver_keeps {p : Byte} (hp : p.toNat < 128) {ps : List Byte}
    (hlow : ∀ q ∈ ps, q.toNat < 128) (hnot : p ∉ ps) (t : Table) :
    PairKept t (crushOver ps t) p := by
  induction ps generalizing t with
  | nil => exact ⟨rfl, rfl⟩
  | cons q ps ih =>
    obtain ⟨hne, hrest⟩ := not_or.1 (List.mem_cons.not.1 hnot)
    obtain ⟨hq, hps⟩ := List.forall_mem_cons.1 hlow
    exact (crushPair_keeps hp hq hne t).trans (ih hps hrest _)

/-- A pass that visits no pair twice orders every pair it visits. -/
theorem crushOver_ordered {p : Byte} {ps : List Byte} (hlow : ∀ q ∈ ps, q.toNat < 128)
    (hnodup : ps.Nodup) (hmem : p ∈ ps) (t : Table) : PairOrdered t (crushOver ps t) p := by
  induction ps generalizing t with
  | nil => cases hmem
  | cons q ps ih =>
    have hp := hlow p hmem
    obtain ⟨hq, hps⟩ := List.forall_mem_cons.1 hlow
    obtain ⟨hnot, hrest⟩ := List.nodup_cons.1 hnodup
    by_cases heq : p = q
    · subst heq
      exact (crushPair_ordered t p).of_kept_after (crushOver_keeps hp hps hnot _)
    · exact .of_kept_before (crushPair_keeps hp hq heq t)
        (ih hps hrest (List.mem_of_ne_of_mem heq hmem) _)

/-- Settles O27: the pass visits each of the 128 pairs once. -/
theorem crushOrdersPairs : Obligations.CrushOrdersPairs := by
  refine fun e => ⟨fun p hp => ?_, rfl⟩
  have hordered := crushOver_ordered (fun _ => mem_lowerPositions.1) lowerPositions_nodup
    (mem_lowerPositions.2 hp) e.S
  rw [← crushTable_eq] at hordered
  exact hordered

end Sys2Proof.Machine
end

section
/-! PROOF. The engine commands one by one (R124 to R128, R130, R131): each is its micro-operation on the live engine, and the tests of `a` decide whether a shuffle comes first. -/

namespace Sys2Proof.Machine

/-! ### What each command does, as one response over one new engine -/

theorem peInit_eq (s : State) :
    exec .peInit s = .next (respond [] { s with pe := Engine.initialized }) := rfl
theorem peAbsorb_eq (bytes : List Byte) (s : State) :
    exec (.peAbsorb bytes) s = .next (respond [] { s with pe := s.pe.absorb bytes }) := rfl
theorem peAbsorbStop_eq (s : State) :
    exec .peAbsorbStop s = .next (respond [] { s with pe := s.pe.absorbStop }) := rfl
theorem peDrip_eq (s : State) :
    exec .peDrip s = .next (respond [s.pe.drip.1] { s with pe := s.pe.drip.2 }) := rfl
theorem peSqueeze_eq (n : BitVec 16) (s : State) :
    exec (.peSqueeze n) s =
      .next (respond (s.pe.squeeze n.toNat).1 { s with pe := (s.pe.squeeze n.toNat).2 }) := rfl

theorem peGetPrime_uncaptured {s : State} (h : s.flags.getLsbD 2 = false) :
    exec .peGetPrime s = .next (raise .primeInvalid s) := if_pos h

/-! ### The fresh engine, the capture and its restoring -/

/-- Settles O28: the identity permutation is the table. -/
theorem peInitInstalls : Obligations.PeInitInstalls := fun _ =>
  ⟨Table.identity, Table.read_identity, rfl⟩

/-- Settles O13: `PrimeInvalid` has code 5 and `ERR` bit 4. -/
theorem getPrimeUncapturedRaises : Obligations.GetPrimeUncapturedRaises := fun _ h =>
  peGetPrime_uncaptured h

/-- Settles O38: the snapshot is the whole live engine, and restoring it is the checked command. -/
theorem primeCapturesAndRestores : Obligations.PrimeCapturesAndRestores :=
  ⟨fun _ => rfl, fun _ _ hvalid hprime => peGetPrime_ready hvalid hprime⟩

/-! ### Absorbing -/

/-- Settles O32: one command absorbs what the two absorb in turn. -/
theorem peAbsorbSplits : Obligations.PeAbsorbSplits := by
  refine fun s p q => ⟨_, _, rfl, rfl, ?_⟩
  rw [peAbsorb_eq, Engine.absorb_append]
  rfl

theorem Engine.shuffleIfFull_of_full {e : Engine} (h : e.a = 128) : e.shuffleIfFull = e.shuffle :=
  if_pos h

/-- A shuffle empties `a`, so the test that finds it 128 may be made before or after it. -/
theorem Engine.shuffle_shuffleIfFull (e : Engine) : e.shuffle.shuffleIfFull = e.shuffle :=
  Engine.shuffleIfFull_eq_self (by rw [Engine.shuffle_a]; decide)

theorem Engine.absorbNibble_shuffle {e : Engine} (h : e.a = 128) (x : BitVec 4) :
    e.shuffle.absorbNibble x = e.absorbNibble x := by
  simp only [Engine.absorbNibble, Engine.shuffle_shuffleIfFull, Engine.shuffleIfFull_of_full h]

theorem Engine.absorb_shuffle {e : Engine} (h : e.a = 128) {bytes : List Byte} (hne : bytes ≠ []) :
    e.shuffle.absorb bytes = e.absorb bytes := by
  obtain ⟨b, bs, rfl⟩ := List.exists_cons_of_ne_nil hne
  rw [Engine.absorb_cons, Engine.absorb_cons, Engine.absorbByte, Engine.absorbByte,
    Engine.absorbNibble_shuffle h]

/-- Settles O30: the first nibble's own test does what the separate command did. -/
theorem peAbsorbAtThreshold : Obligations.PeAbsorbAtThreshold := by
  refine fun s bytes h hne => ⟨_, _, _, rfl, rfl, rfl, ?_⟩
  rw [peAbsorb_eq, ← Engine.absorb_shuffle h hne]
  rfl

/-- Settles O31: `absorb_fits` gives the registers, and absorbing only swaps in the table. -/
theorem peAbsorbCounts : Obligations.PeAbsorbCounts := by
  intro s bytes hfits
  obtain ⟨hcount, hframe⟩ := Engine.absorb_fits bytes s.pe hfits
  have ha : (s.pe.absorb bytes).a = BitVec.ofNat 8 (s.pe.a.toNat + 2 * bytes.length) := by
    rw [← hcount, BitVec.ofNat_toNat, BitVec.setWidth_eq]
  refine ⟨(s.pe.absorb bytes).S, perm_closed.absorb bytes, ?_⟩
  rw [← ha, ← hframe]
  rfl

theorem Engine.absorbStop_full {e : Engine} (h : e.a = 128) :
    e.absorbStop = { e.shuffle with a := 1 } := by
  simp only [Engine.absorbStop, Engine.shuffleIfFull_of_full h, Engine.shuffle_a]
  rfl

/-- Settles O33: the two outcomes of the test of R119. -/
theorem peAbsorbStopCounts : Obligations.PeAbsorbStopCounts := by
  refine ⟨fun s h => ?_, fun s h => ⟨_, rfl, ?_⟩⟩
  · rw [peAbsorbStop_eq, Engine.absorbStop_noShuffle h]
    rfl
  · rw [peAbsorbStop_eq, Engine.absorbStop_full h]
    rfl

/-! ### Shuffling and dripping -/

/-- Settles O34: the registers of `shuffle`. -/
theorem peShuffleMixes : Obligations.PeShuffleMixes := fun s =>
  ⟨s.pe.shuffle, rfl, s.pe.shuffle_i, s.pe.shuffle_z, s.pe.shuffle_w, rfl⟩

theorem Engine.drip_unabsorbed {e : Engine} (h : e.a = 0) :
    e.drip = (e.update.output, { e.update with z := e.update.output }) := by
  rw [Engine.drip, Engine.shuffleIfAbsorbed_eq_self h]

/-- Settles O35: the updated engine's output is the byte and the new `z`. -/
theorem peDripUnabsorbed : Obligations.PeDripUnabsorbed := by
  intro s h
  refine ⟨{ s.pe.update with z := s.pe.update.output }, s.pe.update.output, rfl, rfl, rfl, rfl,
    rfl, rfl, h, rfl, ?_⟩
  rw [peDrip_eq, Engine.drip_unabsorbed h]
  rfl

theorem Engine.shuffleIfAbsorbed_of_ne_zero {e : Engine} (h : e.a ≠ 0) :
    e.shuffleIfAbsorbed = e.shuffle :=
  if_pos ((BitVec.pos_iff_ne_zero e.a).2 h)

theorem Engine.drip_shuffle {e : Engine} (h : e.a ≠ 0) : e.shuffle.drip = e.drip := by
  rw [← Engine.shuffleIfAbsorbed_of_ne_zero h, Engine.drip_shuffleIfAbsorbed]

/-- Settles O36: the shuffle of the drip may be a command of its own, after which `w` is 6 more. -/
theorem peDripShufflesFirst : Obligations.PeDripShufflesFirst := by
  intro s h
  have hw : s.pe.shuffleIfAbsorbed.w = s.pe.w + 6 := by
    rw [Engine.shuffleIfAbsorbed_of_ne_zero h, Engine.shuffle_w]
  refine ⟨_, s.pe.drip.2, s.pe.drip.1, rfl, ?_, s.pe.drip_a, s.pe.drip_z, hw, ?_, peDrip_eq s⟩
  · rw [← Engine.drip_shuffle h]
    rfl
  · rw [Engine.drip_i, hw]

end Sys2Proof.Machine
end

section
/-! PROOF. `PE.SQUEEZE` as a run of drips (R121, R129), and `PE.HASH` and `PE.MAC` as sequences of simpler commands (R132, R133). -/

namespace Sys2Proof.Machine

/-! ### Squeezing -/

/-- A squeeze of one more byte is a drip first: the shuffle falls inside that drip, and after it
`a` is 0. -/
theorem Engine.squeeze_succ (n : Nat) (e : Engine) :
    e.squeeze (n + 1) = (e.drip.1 :: (e.drip.2.squeeze n).1, (e.drip.2.squeeze n).2) := by
  simp only [Engine.squeeze, Engine.drips, Engine.drip_shuffleIfAbsorbed,
    Engine.shuffleIfAbsorbed_eq_self e.drip_a]

theorem peSqueeze_zero (s : State) :
    exec (.peSqueeze 0) s = .next (respond [] { s with pe := s.pe.shuffleIfAbsorbed }) := rfl

/-- Settles O37: none is the test of R121 alone, and one more is a drip first. -/
theorem peSqueezeIsDrips : Obligations.PeSqueezeIsDrips := by
  refine ⟨fun s h => ?_, fun s h => ⟨_, rfl, ?_⟩, fun s n m hm => ?_⟩
  · rw [peSqueeze_zero, Engine.shuffleIfAbsorbed_eq_self h]
    rfl
  · rw [peSqueeze_zero, Engine.shuffleIfAbsorbed_of_ne_zero h]
    rfl
  · refine ⟨_, _, _, _, peDrip_eq s, rfl, peSqueeze_eq n _, rfl, Engine.squeeze_length _ _, ?_⟩
    rw [peSqueeze_eq, hm, Engine.squeeze_succ]
    rfl

/-! ### Hash and MAC -/

theorem peHash_eq (n : BitVec 16) (m : List Byte) (s : State) :
    exec (.peHash n m) s = .next (respond (hashEngine (min n.toNat 255) m).1 { s with
      pe := (hashEngine (min n.toNat 255) m).2 }) := rfl
theorem peMac_eq (n : BitVec 16) (k m : List Byte) (s : State) :
    exec (.peMac n k m) s = .next (respond (macEngine (min n.toNat 255) k m).1 { s with
      pe := (macEngine (min n.toNat 255) k m).2 }) := rfl

theorem execAll_cons_of_next {i : Instr} {s t : State} (h : exec i s = .next t)
    (is : List Instr) : execAll (i :: is) s = execAll is t := by
  rw [execAll, h]

/-- One field of a hash or MAC, absorbed and closed by a stop. -/
theorem execAll_field (field : List Byte) (rest : List Instr) (s : State) :
    execAll (.peAbsorb field :: .peAbsorbStop :: rest) s =
      execAll rest (respond [] (respond [] { s with pe := (s.pe.absorb field).absorbStop })) := by
  rw [execAll_cons_of_next (peAbsorb_eq field s), execAll_cons_of_next (peAbsorbStop_eq _)]
  rfl

/-- The last two commands of both sequences do what `finish` does. -/
theorem execAll_finish {r : Nat} (hr : r ≤ 255) (s : State) :
    execAll [.peAbsorb [BitVec.ofNat 8 r], .peSqueeze (BitVec.ofNat 16 r)] s =
      .next (respond (s.pe.finish r).1 { respond [] s with pe := (s.pe.finish r).2 }) := by
  have hcount : (BitVec.ofNat 16 r).toNat = r := by
    rw [BitVec.toNat_ofNat]
    omega
  rw [execAll_cons_of_next (peAbsorb_eq _ s), execAll_cons_of_next (peSqueeze_eq _ _), hcount]
  rfl

theorem getLast?_respond (d : List Byte) (s : State) :
    (respond d s).responses.getLast? = some ⟨0x00, d⟩ :=
  List.getLast?_concat

/-- Settles O40: the message is the one field before the engine is finished. -/
theorem peHashIsSequence : Obligations.PeHashIsSequence := by
  intro s n m
  have hsequence := (execAll_cons_of_next (peInit_eq s) _).trans <|
    (execAll_field m _ _).trans <| execAll_finish (Nat.min_le_right n.toNat 255) _
  exact ⟨_, _, hsequence, getLast?_respond _ _, hashEngine_length _ m, peHash_eq n m s⟩

/-- Settles O41: as `PE.HASH`, with the key as a field before the message. -/
theorem peMacIsSequence : Obligations.PeMacIsSequence := by
  intro s n k m
  have hsequence := (execAll_cons_of_next (peInit_eq s) _).trans <|
    (execAll_field k _ _).trans <| (execAll_field m _ _).trans <|
      execAll_finish (Nat.min_le_right n.toNat 255) _
  exact ⟨_, _, hsequence, getLast?_respond _ _, macEngine_length _ k m, peMac_eq n k m s⟩

/-- Settles O42: both bodies start from a fresh engine and see the length through its clamp. -/
theorem hashAndMacClampAndForget : Obligations.HashAndMacClampAndForget := by
  intro s s' n n' k m hclamp
  have hhash := peHash_eq n' m s'
  have hmac := peMac_eq n' k m s'
  rw [← hclamp] at hhash hmac
  exact ⟨_, _, _, _, hashEngine_length _ _, macEngine_length _ _ _, peHash_eq n m s, hhash,
    peMac_eq n k m s, hmac⟩

end Sys2Proof.Machine
end

section
/-! PROOF. The keys of both sessions: a wrong length commits nothing (R201), and a good `CS.SETKEY` leaves its engine live and captured (R151). -/

namespace Sys2Proof.Machine

theorem csSetKey_wrongLength {key : List Byte} (h : key.length ≠ 16) (s : State) :
    exec (.csSetKey key) s = .next (raise .invalidKeyLength s) := if_pos h

theorem abSetKey_wrongLength {key : List Byte} (h : key.length ≠ 7) (s : State) :
    exec (.abSetKey key) s = .next (raise .invalidKeyLength s) := if_pos h

/-- Settles O12: `InvalidKeyLength` has code 1 and `ERR` bit 0. -/
theorem wrongKeyLengthRaises : Obligations.WrongKeyLengthRaises :=
  ⟨fun s _ h => csSetKey_wrongLength h s, fun s _ h => abSetKey_wrongLength h s⟩

/-- The 32 nibbles of the key stay far below the threshold, so keying runs no shuffle and touches
only the table and `a` (R151). -/
theorem keyedEngine_eq {key : List Byte} (h : key.length = 16) :
    keyedEngine key = { Engine.initialized with
      a := 33
      S := (Engine.initialized.absorb key).S } := by
  obtain ⟨hcount, hframe⟩ := Engine.absorb_fits key Engine.initialized (by rw [h]; decide)
  have ha : (Engine.initialized.absorb key).a = 32 :=
    BitVec.eq_of_toNat_eq (by rw [hcount, h]; decide)
  rw [keyedEngine, Engine.absorbStop_noShuffle (by rw [ha]; decide), hframe, ha]
  rfl

/-- Settles O43: the command is the four PE commands in one, and `perm_closed` carries the table. -/
theorem csSetKeyCaptures : Obligations.CsSetKeyCaptures := by
  intro s key hlength
  exact ⟨_, keyedEngine key, _, perm_closed.absorb key Engine.initialized_perm,
    keyedEngine_eq hlength, rfl, rfl, csSetKey_ready hlength⟩

end Sys2Proof.Machine
end

section
/-! PROOF. The hold of a `NEWSEQ` (R212): with its bytes ready it does the same whether or not it was held before. -/

namespace Sys2Proof.Machine

/-- `CS.NEWSEQ` with its bytes ready takes them, in order, and the held condition it may come from
leaves no trace (R152, R212). -/
theorem csNewSeq_enough {s : State} {e : Engine} (hkeyed : s.flags.getLsbD 0 = true)
    (hprime : s.prime = some e) (hready : s.nonceBytes.count ≤ s.rng.length) :
    ∃ (v : BitVec 24) (rest : List Byte), ∀ held : Option Held,
      exec .csNewSeq { s with held := held } = .next (respond [] { s with
        pe := e.absorb (seqBytes s.nonceBytes v), seq := v, rng := rest }) := by
  obtain ⟨v, hv, -⟩ := seqOfBytes_of_length (List.length_take_of_le hready)
  obtain ⟨hbytes, -⟩ := seqBytes_seqOfBytes hv
  refine ⟨v, s.rng.drop s.nonceBytes.count, fun held => ?_⟩
  rw [hbytes]
  exact csNewSeq_ready (s := { s with held := held }) hkeyed hprime
    (List.take_append_drop _ _).symm hv

/-- `AB.NEWSEQ` likewise, with its three bytes (R175, R212). -/
theorem abNewSeq_enough {s : State} (hkeyed : s.flags.getLsbD 1 = true)
    (hready : 3 ≤ s.rng.length) :
    ∃ (n : BitVec 16) (r : Byte) (rest : List Byte), ∀ held : Option Held,
      exec .abNewSeq { s with held := held } =
        .next (respond [] { s with aseq := n, roll := r, rng := rest }) := by
  obtain ⟨b0, b1, b2, rest, hrng⟩ : ∃ b0 b1 b2 rest, s.rng = b0 :: b1 :: b2 :: rest := by
    match s.rng, hready with
    | b0 :: b1 :: b2 :: rest, _ => exact ⟨b0, b1, b2, rest, rfl⟩
  exact ⟨_, _, rest, fun held => abNewSeq_ready (s := { s with held := held }) hkeyed hrng⟩

/-- Settles O45: too few bytes hold the command, and with enough it does the same from the idle
core and from the held one. -/
theorem heldCommandResumes : Obligations.HeldCommandResumes := by
  refine ⟨fun s more _ hkeyed hprime hshort henough => ?_, fun s more _ hkeyed hshort henough => ?_⟩
  · obtain ⟨e, he⟩ := Option.ne_none_iff_exists'.1 hprime
    obtain ⟨v, rest, hdraw⟩ := csNewSeq_enough (s := supplyRng more s) hkeyed he henough
    exact ⟨_, csNewSeq_short hkeyed hshort, hdraw s.held, rfl,
      (step_of_held (k := .csNewSeq) rfl).trans (hdraw (some .csNewSeq))⟩
  · obtain ⟨n, r, rest, hdraw⟩ := abNewSeq_enough (s := supplyRng more s) hkeyed henough
    exact ⟨_, abNewSeq_short hkeyed hshort, hdraw s.held, rfl,
      (step_of_held (k := .abNewSeq) rfl).trans (hdraw (some .abNewSeq))⟩

end Sys2Proof.Machine
end

section
/-! PROOF. `CS.ENCRYPT` and `CS.DECRYPT` as one data path with two combine functions (R155, R156). -/

namespace Sys2Proof.Machine

/-- `cmd` sends its payload through the data path of the session, combining by `f`. -/
def RunsCipher (cmd : List Byte → Instr) (f : Byte → Byte → Byte) : Prop :=
  ∀ {s : State}, s.flags.getLsbD 0 = true → ∀ src : List Byte,
    exec (cmd src) s = .next (respond (s.pe.cipher f src).1 { s with pe := (s.pe.cipher f src).2 })

theorem csEncrypt_runsCipher : RunsCipher .csEncrypt addCombine := csEncrypt_ready

theorem csDecrypt_runsCipher : RunsCipher .csDecrypt subCombine := csDecrypt_ready

theorem csEncrypt_unkeyed {s : State} (h : s.flags.getLsbD 0 = false) (src : List Byte) :
    exec (.csEncrypt src) s = .next (raise .notKeyed s) := if_pos h

theorem csDecrypt_unkeyed {s : State} (h : s.flags.getLsbD 0 = false) (src : List Byte) :
    exec (.csDecrypt src) s = .next (raise .notKeyed s) := if_pos h

/-- The first byte is combined with the byte `PE.DRIP` would answer, and the rest is the same
command from the state that `PE.DRIP` leaves. -/
theorem RunsCipher.cons {cmd : List Byte → Instr} {f : Byte → Byte → Byte} (run : RunsCipher cmd f)
    {s : State} (h : s.flags.getLsbD 0 = true) (b : Byte) (src : List Byte) :
    ∃ (u v : State) (ks : Byte) (d : List Byte),
      exec .peDrip s = .next u ∧ u.responses = s.responses ++ [⟨0x00, [ks]⟩] ∧
      exec (cmd src) u = .next v ∧ v.responses = u.responses ++ [⟨0x00, d⟩] ∧
      exec (cmd (b :: src)) s = .next { s with
        pe := v.pe, responses := s.responses ++ [⟨0x00, f b ks :: d⟩], held := none } :=
  ⟨_, _, _, _, peDrip_eq s, rfl, run (by exact h) src, rfl,
    run h (b :: src)⟩

/-- Settles O48: the data path with `addCombine`, whose sum of bytes is that of R155. -/
theorem csEncryptAddsDrips : Obligations.CsEncryptAddsDrips :=
  ⟨fun _ src h => csEncrypt_unkeyed h src, fun _ h => csEncrypt_runsCipher h [],
    fun _ b src h => csEncrypt_runsCipher.cons h b src⟩

theorem subCombine_eq_ofNat (b ks : Byte) :
    subCombine b ks = BitVec.ofNat 8 (b.toNat + 256 - ks.toNat) := by
  apply BitVec.eq_of_toNat_eq
  have := ks.isLt
  rw [subCombine, BitVec.toNat_sub, BitVec.toNat_ofNat]
  omega

/-- Settles O49: the data path with `subCombine`, whose difference is the number of R156. -/
theorem csDecryptSubtractsDrips : Obligations.CsDecryptSubtractsDrips := by
  refine ⟨fun _ src h => csDecrypt_unkeyed h src, fun _ h => csDecrypt_runsCipher h [],
    fun s b src h => ?_⟩
  simp only [← subCombine_eq_ofNat]
  exact csDecrypt_runsCipher.cons h b src

/-- The engine after a payload depends on its length alone (R156). -/
theorem Engine.cipher_snd_congr (f g : Byte → Byte → Byte) {src dst : List Byte}
    (h : src.length = dst.length) (e : Engine) : (e.cipher f src).2 = (e.cipher g dst).2 := by
  rw [Engine.cipher_snd, Engine.cipher_snd, h]

/-- Settles O50: `cipher_append` cuts the payload, and only its length reaches the engine. -/
theorem csEncryptContinues : Obligations.CsEncryptContinues := by
  intro s p q p' q' hkeyed hp hq
  have hwhole := csEncrypt_ready hkeyed (p ++ q)
  rw [Engine.cipher_append] at hwhole
  have hlength : (p' ++ q').length = (p ++ q).length := by
    rw [List.length_append, List.length_append, hp, hq]
  have hengine : (s.pe.cipher subCombine (p' ++ q')).2 =
      ((s.pe.cipher addCombine p).2.cipher addCombine q).2 := by
    rw [Engine.cipher_snd_congr subCombine addCombine hlength, Engine.cipher_append]
  exact ⟨_, _, _, _, _, csEncrypt_ready hkeyed p, rfl, csEncrypt_ready (by exact hkeyed) q, rfl,
    hwhole, csDecrypt_ready hkeyed (p' ++ q'), hengine⟩

end Sys2Proof.Machine
end

section
/-! PROOF. What a keyed session keeps (R150, R151), and that its keystream is a function of the key and the sequence number alone (R158, R159). -/

namespace Sys2Proof.Machine

/-- The core is keyed with `key`: the flag is set and the snapshot is the key's engine. -/
structure State.KeyedWith (nb : NonceBytes) (key : List Byte) (s : State) : Prop where
  flag : s.flags.getLsbD 0 = true
  core : s.nonceBytes = nb
  snapshot : s.prime = some (keyedEngine key)

/-- The engine from which the packet numbered `v` is enciphered (R150). -/
def packetEngine (nb : NonceBytes) (key : List Byte) (v : BitVec 24) : Engine :=
  (keyedEngine key).absorb (seqBytes nb v)

/-- A good `CS.SETKEY` keys the core, whatever its state. -/
theorem csSetKey_keyedWith {key : List Byte} (h : key.length = 16) (s : State) :
    ∃ t, exec (.csSetKey key) s = .next t ∧ t.KeyedWith s.nonceBytes key := by
  refine ⟨_, csSetKey_ready h, ?flag, rfl, rfl⟩
  show (s.flags ||| 0x05).getLsbD 0 = true
  rw [BitVec.getLsbD_or, Bool.or_eq_true]
  exact .inr (by decide)

theorem exec_nonceBytes {i : Instr} {s t : State} (h : exec i s = .next t) :
    t.nonceBytes = s.nonceBytes := by
  rcases exec_cases h with ⟨e, rfl⟩ | ⟨k, -, rfl⟩ | ⟨d, u, he, rfl⟩
  · rfl
  · rfl
  · obtain ⟨-, -, hnonce, -⟩ := effect_frame he
    exact hnonce

section
variable {nb : NonceBytes} {key : List Byte} {s t : State}

/-- A command that does not write the snapshot keeps the key: no bit of `FLAGS` is ever cleared. -/
theorem State.KeyedWith.after_exec {i : Instr} (hs : s.KeyedWith nb key) (hi : ¬ writesSnapshot i)
    (h : exec i s = .next t) : t.KeyedWith nb key where
  flag := (exec_statusMove h).flags_sticky hs.flag
  core := (exec_nonceBytes h).trans hs.core
  snapshot := (not_imp_comm.1 (exec_accessKept h).prime hi).trans hs.snapshot

theorem State.KeyedWith.after_execAll {is : List Instr} (hs : s.KeyedWith nb key)
    (his : ∀ i ∈ is, ¬ writesSnapshot i) (h : execAll is s = .next t) : t.KeyedWith nb key := by
  induction is generalizing s with
  | nil => cases h; exact hs
  | cons i is ih =>
    obtain ⟨u, hi, hrest⟩ := execAll_cons_next h
    obtain ⟨hhead, htail⟩ := List.forall_mem_cons.1 his
    exact ih (hs.after_exec hhead hi) htail hrest

/-- A session keyed once and then driven through other commands still has its key. -/
theorem keyedWith_of_execAll {is : List Instr} (hlength : key.length = 16)
    (his : ∀ i ∈ is, ¬ writesSnapshot i) (h : execAll (.csSetKey key :: is) s = .next t) :
    t.KeyedWith s.nonceBytes key := by
  obtain ⟨u, hset, hrest⟩ := execAll_cons_next h
  obtain ⟨v, hset', hv⟩ := csSetKey_keyedWith hlength s
  obtain rfl : v = u := by simpa [hset'] using hset
  exact hv.after_execAll his hrest

theorem not_writesSnapshot_of_primesPacket {i : Instr} (h : primesPacket i) :
    ¬ writesSnapshot i := by
  rcases h with rfl | rfl | ⟨n, rfl⟩ <;> simp [writesSnapshot]

/-- However a packet is primed, its engine is that of the key and the number `SEQ` then holds; only
a `CS.NEWSEQ` short of bytes primes none and is held (R150, R152 to R154). -/
theorem State.KeyedWith.primed_pe {i : Instr} (hs : s.KeyedWith nb key) (hi : primesPacket i)
    (h : exec i s = .next t) (hheld : t.held = none) :
    t.pe = packetEngine nb key t.seq := by
  obtain ⟨hflag, rfl, hprime⟩ := hs
  rcases hi with rfl | rfl | ⟨n, rfl⟩
  case inl =>
    rcases Nat.lt_or_ge s.rng.length s.nonceBytes.count with hshort | henough
    · rw [csNewSeq_short hflag hshort] at h
      cases h
      cases hheld
    · obtain ⟨v, rest, hdraw⟩ := csNewSeq_enough hflag hprime henough
      cases (hdraw s.held).symm.trans h
      rfl
  case inr.inl =>
    cases (csNewSend_ready hflag hprime).symm.trans h
    rfl
  case inr.inr =>
    cases (csNewRecv_ready hflag hprime n).symm.trans h
    rfl

/-- Priming by `CS.NEWRECV` and sending a payload through the data path: the answer and the engine
are functions of the core's `NONCE_BYTES`, the key, the number and the payload. -/
theorem State.KeyedWith.newRecv_cipher (hs : s.KeyedWith nb key) (n : BitVec 24)
    {cmd : List Byte → Instr} {f : Byte → Byte → Byte} (run : RunsCipher cmd f) (src : List Byte) :
    ∃ u, execAll [.csNewRecv n, cmd src] s = .next u ∧
      u.responses.getLast? =
        some ⟨0x00, ((packetEngine nb key (truncSeq nb n)).cipher f src).1⟩ ∧
      u.pe = ((packetEngine nb key (truncSeq nb n)).cipher f src).2 := by
  obtain ⟨hflag, rfl, hprime⟩ := hs
  exact ⟨_, (execAll_cons_of_next (csNewRecv_ready hflag hprime n) _).trans
    (execAll_cons_of_next (run (by exact hflag) src) []), getLast?_respond _ _, rfl⟩

end

/-- The same from any state of the core, keyed first. -/
theorem setKey_newRecv_cipher {key : List Byte} (hlength : key.length = 16) (s : State)
    (n : BitVec 24) {cmd : List Byte → Instr} {f : Byte → Byte → Byte} (run : RunsCipher cmd f)
    (src : List Byte) :
    ∃ u, execAll [.csSetKey key, .csNewRecv n, cmd src] s = .next u ∧
      u.responses.getLast? = some ⟨0x00,
        ((packetEngine s.nonceBytes key (truncSeq s.nonceBytes n)).cipher f src).1⟩ ∧
      u.pe = ((packetEngine s.nonceBytes key (truncSeq s.nonceBytes n)).cipher f src).2 := by
  obtain ⟨t, hset, ht⟩ := csSetKey_keyedWith hlength s
  rw [execAll_cons_of_next hset]
  exact ht.newRecv_cipher n run src

theorem subCombine_addCombine (b ks : Byte) : subCombine (addCombine b ks) ks = b :=
  add_sub_cancel_right b ks

/-- Settles O51: both cores start the packet from the same engine, where `cipher_cancel` undoes the
sums and as many drips leave the same engine. -/
theorem csRoundTrip : Obligations.CsRoundTrip := by
  intro sender receiver key plain n hlength hcore
  obtain ⟨t, hsend, hcipher, ht⟩ :=
    setKey_newRecv_cipher hlength sender n csEncrypt_runsCipher plain
  obtain ⟨u, hreceive, hplain, hu⟩ :=
    setKey_newRecv_cipher hlength receiver n csDecrypt_runsCipher
      (Engine.cipher addCombine plain
        (packetEngine sender.nonceBytes key (truncSeq sender.nonceBytes n))).1
  rw [hcore, Engine.cipher_cancel subCombine_addCombine] at hplain
  rw [hcore, Engine.cipher_snd_congr subCombine addCombine (Engine.cipher_length _ _ _), ← ht] at hu
  exact ⟨t, u, _, hsend, hcipher, hreceive, hplain, hu⟩

/-- Settles O52: commands that do not write the snapshot keep a session keyed, and a keyed session
primed with a number is in the engine of that key and number, however it got there. -/
theorem csKeystreamDeterminism : Obligations.CsKeystreamDeterminism := by
  refine ⟨?reprimed, ?sameNumber⟩
  case reprimed =>
    intro s s' a key plain n is hlength hcore his ha
    obtain ⟨t, hdriven, hcipher, ht⟩ :=
      (keyedWith_of_execAll hlength his ha).newRecv_cipher n csEncrypt_runsCipher plain
    obtain ⟨u, hfresh, hcipher', hu⟩ :=
      setKey_newRecv_cipher hlength s' n csEncrypt_runsCipher plain
    rw [hcore] at hcipher' hu
    exact ⟨t, u, _, hdriven, hcipher, hfresh, hcipher', hu.trans ht.symm⟩
  case sameNumber =>
    intro s s' a a' b b' key is is' i i' hlength hcore his his' ha ha' hi hi' hb hb' hheld hheld'
      hseq
    have hkeyed := keyedWith_of_execAll hlength his ha
    have hkeyed' := keyedWith_of_execAll hlength his' ha'
    rw [hcore] at hkeyed'
    have hpe : b'.pe = b.pe := by
      rw [hkeyed'.primed_pe hi' hb' hheld', hkeyed.primed_pe hi hb hheld, hseq]
    have hflag := (hkeyed.after_exec (not_writesSnapshot_of_primesPacket hi) hb).flag
    have hflag' := (hkeyed'.after_exec (not_writesSnapshot_of_primesPacket hi') hb').flag
    refine ⟨hpe, fun plain => ?_⟩
    have hencrypt' := csEncrypt_ready hflag' plain
    rw [hpe] at hencrypt'
    exact ⟨_, _, _, csEncrypt_ready hflag plain, rfl, hencrypt', rfl, rfl⟩

end Sys2Proof.Machine
end

section
/-! PROOF. The Alternate Backend turn by turn (R170, R171, R173): the key schedule as 256 turns from the identity, and a pass as one cipher step a byte. -/

namespace Sys2Proof.Machine

/-! ### The key schedule -/

theorem keyTurns_eq : keyTurns = 256 := by unfold keyTurns; rfl

/-- The running index and the table after the first `v` turns of the key schedule (R170). -/
def abKeyTurnsTo (key : List Byte) (v : Nat) : Byte × Table :=
  (List.range v).foldl (abKeyTurn key) (0, Table.identity)

theorem abKeyTurnsTo_succ (key : List Byte) (v : Nat) :
    abKeyTurnsTo key (v + 1) = abKeyTurn key (abKeyTurnsTo key v) v := by
  rw [abKeyTurnsTo, List.range_succ, List.foldl_concat, abKeyTurnsTo]

theorem abKeySchedule_eq (key : List Byte) : abKeySchedule key = (abKeyTurnsTo key 256).2 := by
  rw [abKeySchedule, keyTurns_eq, abKeyTurnsTo]

/-- One turn of R170 at a position whose key byte is `b`. -/
theorem abKeyTurn_of_getElem? {key : List Byte} {v : Nat} {b : Byte} (h : key[v % 7]? = some b)
    (r : Byte × Table) :
    (abKeyTurn key r v).1 = r.1 + r.2.read (BitVec.ofNat 8 v) + b ∧
      (abKeyTurn key r v).2 = r.2.swap (BitVec.ofNat 8 v) (abKeyTurn key r v).1 := by
  have hbyte : key.getD (v % 7) 0 = b := by rw [List.getD_eq_getElem?_getD, h, Option.getD_some]
  exact ⟨congrArg (r.1 + r.2.read (BitVec.ofNat 8 v) + ·) hbyte, rfl⟩

/-- Settles O53: with 7 key bytes every position `v mod 7` holds one, and the turns are the
recurrence. -/
theorem abKeyScheduleRecurrence : Obligations.AbKeyScheduleRecurrence := by
  intro key hlength
  refine ⟨fun v => (abKeyTurnsTo key v).2, fun v => (abKeyTurnsTo key v).1,
    Table.read_identity, rfl, fun v _ => ?turn, abKeySchedule_eq key⟩
  have hpos : v % 7 < key.length := by omega
  have hbyte := List.getElem?_eq_getElem hpos
  simp only [abKeyTurnsTo_succ]
  exact ⟨_, hbyte, abKeyTurn_of_getElem? hbyte _⟩

/-! ### A pass -/

/-- The pass after `n` steps of the cipher (R171). -/
def Pass.after (n : Nat) (p : Pass) : Pass := (fun q => (abStep q).2)^[n] p

theorem Pass.after_succ (n : Nat) (p : Pass) : p.after (n + 1) = (abStep (p.after n)).2 :=
  Function.iterate_succ_apply' _ n p

/-- A pass over a payload takes as many steps as the payload has bytes (R173). -/
theorem abLoop_snd (src : List Byte) (p : Pass) : (abLoop src p).2 = p.after src.length := by
  induction src generalizing p with
  | nil => rfl
  | cons b src ih => exact ih (abStep p).2

/-- Each byte is combined with what the step at its position returns (R173). -/
theorem abLoop_getElem? {src : List Byte} {n : Nat} {b : Byte} (h : src[n]? = some b) (p : Pass) :
    (abLoop src p).1[n]? = some (xorCombine b (abStep (p.after n)).1) := by
  induction src generalizing n p with
  | nil => simp at h
  | cons c src ih =>
    cases n with
    | zero => cases h; rfl
    | succ n => exact ih h (abStep p).2

/-- Where `abPass` starts: the indices at the seed, the table as it stands (R171, R173). -/
def Pass.start (seed : Byte × Byte) (T : Table) : Pass := { ai := seed.1, aj := seed.2, T := T }

theorem abPass_snd (seed : Byte × Byte) (src : List Byte) (T : Table) :
    (abPass seed src T).2 = ((Pass.start seed T).after src.length).T :=
  congrArg Pass.T (abLoop_snd src (Pass.start seed T))

theorem abPass_getElem? {src : List Byte} {n : Nat} {b : Byte} (h : src[n]? = some b)
    (seed : Byte × Byte) (T : Table) : (abPass seed src T).1[n]? =
      some (xorCombine b (abStep ((Pass.start seed T).after n)).1) :=
  abLoop_getElem? h (Pass.start seed T)

/-- Settles O58: the tables and indices are those of `Pass.after`, started at `AB_SEED` and the
live table. -/
theorem abCombineSteps : Obligations.AbCombineSteps := by
  intro s T src hkeyed hT
  refine ⟨fun n => ((Pass.start s.abSeed T).after n).T,
    fun n => ((Pass.start s.abSeed T).after n).ai, fun n => ((Pass.start s.abSeed T).after n).aj,
    (abPass s.abSeed src T).1, rfl, rfl, fun n hn => ?step, abPass_length _ _ _, ?run⟩
  case step =>
    have hbyte := List.getElem?_eq_getElem hn
    simp only [Pass.after_succ]
    exact ⟨rfl, rfl, rfl, _, hbyte, abPass_getElem? hbyte s.abSeed T⟩
  case run =>
    rw [abCombine_ready hkeyed hT, abPass_snd]
    rfl

end Sys2Proof.Machine
end

section
/-! PROOF. A keyed backend: its burned-in table (R174), the packet primed from it (R177), and the round trip (R181). -/

namespace Sys2Proof.Machine

theorem abBurn_eq : abBurn = 1536 := by unfold abBurn; rfl

/-- "the source bytes and the output bytes do not matter, only the 1536 swaps" (R174). -/
theorem abKeyedTable_eq (seed : Byte × Byte) (key : List Byte) {src : List Byte}
    (h : src.length = 1536) : abKeyedTable seed key = (abPass seed src (abKeySchedule key)).2 := by
  have hburn : (List.replicate abBurn (0 : Byte)).length = src.length := by
    rw [List.length_replicate, abBurn_eq, h]
  exact abPass_snd_congr seed hburn _

/-- Settles O54: the burn-in is a pass like that of `AB.COMBINE`, which the data cannot change. -/
theorem abSetKeyBurnsIn : Obligations.AbSetKeyBurnsIn := by
  intro s key src hlength hsrc
  have hcombine := abCombine_ready
    (s := { s with flags := s.flags ||| 0x02, T := some (abKeySchedule key) })
    (setAbKeyed_abKeyed s) rfl src
  exact ⟨abKeyedTable s.abSeed key, _, abKeyedTable_perm _ _, hcombine,
    congrArg some (abKeyedTable_eq s.abSeed key hsrc).symm, abSetKey_ready hlength⟩

/-- Settles O57: the command checks the flag and the captured table, and no value of an operand. -/
theorem abNewRecvSets : Obligations.AbNewRecvSets := fun _ _ n r hkeyed hPT =>
  abNewRecv_ready hkeyed hPT n r

/-- Keying, priming by `AB.NEWRECV` and combining a payload: the answer and the table are functions
of the counters at key setup, the key, the operands and the payload. -/
theorem abSetKey_newRecv_combine {key : List Byte} (hlength : key.length = 7) (s : State)
    (n : BitVec 16) (r : Byte) (src : List Byte) :
    ∃ u, execAll [.abSetKey key, .abNewRecv n r, .abCombine src] s = .next u ∧
      u.responses.getLast? =
        some ⟨0x00, (abPass (Config.abSeed n r) src (abKeyedTable s.abSeed key)).1⟩ ∧
      u.T = some (abPass (Config.abSeed n r) src (abKeyedTable s.abSeed key)).2 := by
  have hkeyed : (s.flags ||| 0x02).getLsbD 1 = true := setAbKeyed_abKeyed s
  exact ⟨_, (execAll_cons_of_next (abSetKey_ready hlength) _).trans <|
    (execAll_cons_of_next (abNewRecv_ready (by exact hkeyed) rfl n r) _).trans <|
      execAll_cons_of_next (abCombine_ready (by exact hkeyed) rfl src) [],
    getLast?_respond _ _, rfl⟩

/-- Settles O59: equal counters at key setup give both cores one table, over which a second pass
takes back the first one's XORs and makes the same swaps. -/
theorem abRoundTrip : Obligations.AbRoundTrip := by
  intro sender receiver key plain n r hlength haseq hroll
  have hseed : receiver.abSeed = sender.abSeed := congrArg₂ Config.abSeed haseq hroll
  obtain ⟨t, hsend, hcipher, ht⟩ := abSetKey_newRecv_combine hlength sender n r plain
  obtain ⟨u, hreceive, hplain, hu⟩ := abSetKey_newRecv_combine hlength receiver n r
    (abPass (Config.abSeed n r) plain (abKeyedTable sender.abSeed key)).1
  rw [hseed, abPass_cancel] at hplain
  rw [hseed, abPass_snd_congr _ (abPass_length _ _ _), ← ht] at hu
  exact ⟨t, u, _, hsend, hcipher, hreceive, hplain, hu⟩

end Sys2Proof.Machine
end

section
/-! PROOF. The core between commands (R212, R220), and the session commands without a key (R200, R202). -/

namespace Sys2Proof.Machine

/-- Settles O7: the two branches of `step` in which no packet is taken. -/
theorem stepIdleOrHeld : Obligations.StepIdleOrHeld :=
  ⟨fun _ hidle hport => step_of_no_packet hidle hport, fun _ _ hheld => step_of_held hheld⟩

theorem csNewSeq_unkeyed {s : State} (h : s.flags.getLsbD 0 = false) :
    exec .csNewSeq s = .next (raise .notKeyed s) := if_pos h

theorem csNewSend_unkeyed {s : State} (h : s.flags.getLsbD 0 = false) :
    exec .csNewSend s = .next (raise .notKeyed s) := if_pos h

theorem csNewRecv_unkeyed {s : State} (h : s.flags.getLsbD 0 = false) (n : BitVec 24) :
    exec (.csNewRecv n) s = .next (raise .notKeyed s) := if_pos h

theorem abNewSeq_unkeyed {s : State} (h : s.flags.getLsbD 1 = false) :
    exec .abNewSeq s = .next (raise .notKeyed s) := if_pos h

theorem abNewSend_unkeyed {s : State} (h : s.flags.getLsbD 1 = false) :
    exec .abNewSend s = .next (raise .notKeyed s) := if_pos h

theorem abNewRecv_unkeyed {s : State} (h : s.flags.getLsbD 1 = false) (n : BitVec 16) (r : Byte) :
    exec (.abNewRecv n r) s = .next (raise .notKeyed s) := if_pos h

theorem abCombine_unkeyed {s : State} (h : s.flags.getLsbD 1 = false) (src : List Byte) :
    exec (.abCombine src) s = .next (raise .notKeyed s) := if_pos h

/-- Settles O11: each of the nine commands reads its session's flag first, and `NotKeyed` has
code 2 and `ERR` bit 1. -/
theorem unkeyedSessionRaises : Obligations.UnkeyedSessionRaises := by
  refine ⟨fun s i hunkeyed hi => ?_, fun s i hunkeyed hi => ?_⟩
  · rcases hi with rfl | rfl | ⟨n, rfl⟩ | ⟨src, rfl⟩ | ⟨src, rfl⟩
    · exact csNewSeq_unkeyed hunkeyed
    · exact csNewSend_unkeyed hunkeyed
    · exact csNewRecv_unkeyed hunkeyed n
    · exact csEncrypt_unkeyed hunkeyed src
    · exact csDecrypt_unkeyed hunkeyed src
  · rcases hi with rfl | rfl | ⟨n, r, rfl⟩ | ⟨src, rfl⟩
    · exact abNewSeq_unkeyed hunkeyed
    · exact abNewSend_unkeyed hunkeyed
    · exact abNewRecv_unkeyed hunkeyed n r
    · exact abCombine_unkeyed hunkeyed src

end Sys2Proof.Machine
end

section
/-! PROOF. Errors are precise (R204): an answer with an error status is the raise of that error, at a core whose only other change is the packet it took. -/

namespace Sys2Proof.Machine

/-- A command whose answer is not a success has raised an error. -/
theorem exec_error_answer {i : Instr} {s t : State} {p : Packet} (h : exec i s = .next t)
    (hanswer : t.responses = s.responses ++ [p]) (hstatus : p.first ≠ 0) :
    ∃ e, t = raise e s := by
  rcases exec_cases h with raised | ⟨k, -, rfl⟩ | ⟨d, u, he, rfl⟩
  · exact raised
  · simp at hanswer
  · obtain ⟨hresponses, -, -, -⟩ := effect_frame he
    obtain rfl : ⟨0x00, d⟩ = p := by simpa [hresponses] using hanswer
    exact absurd rfl hstatus

/-- A step whose answer is not a success has raised an error, with at most one packet taken from
the command port before. -/
theorem step_error_answer {s t : State} {p : Packet} (h : step s = .next t)
    (hanswer : t.responses = s.responses ++ [p]) (hstatus : p.first ≠ 0) :
    ∃ (e : Error) (left : List Packet), (left = s.commands ∨ ∃ c, s.commands = c :: left) ∧
      t = raise e { s with commands := left } := by
  rcases step_cases h with ⟨k, -, hx⟩ | ⟨-, -, rfl⟩ | ⟨c, rest, -, hc, ⟨i, -, hx⟩ | ⟨e, -, rfl⟩⟩
  · obtain ⟨e, rfl⟩ := exec_error_answer hx hanswer hstatus
    exact ⟨e, s.commands, .inl rfl, rfl⟩
  · simp at hanswer
  · obtain ⟨e, rfl⟩ := exec_error_answer hx hanswer hstatus
    exact ⟨e, rest, .inr ⟨c, hc⟩, rfl⟩
  · exact ⟨e, rest, .inr ⟨c, hc⟩, rfl⟩

/-- Settles O10: the answer of a raise is the one byte `c`, and its writes are those of R204. -/
theorem errorsArePrecise : Obligations.ErrorsArePrecise := by
  intro s t p h hanswer hstatus
  obtain ⟨e, left, hleft, rfl⟩ := step_error_answer h hanswer hstatus
  obtain rfl : ⟨e.code, []⟩ = p := by simpa using hanswer
  exact ⟨e, left, rfl, hleft, rfl⟩

end Sys2Proof.Machine
end

section
/-! PROOF. Malformed packets (R82, R205): the length that each row of the opcode table refuses. -/

namespace Sys2Proof.Machine

/-- The opcodes of format N (R81, R86). -/
def bareOpcodes : List Nat :=
  [0x01, 0x03, 0x04, 0x05, 0x07, 0x08, 0x21, 0x22, 0x26, 0x41, 0x42, 0x46, 0xF0]

/-- The opcodes of format P, which admits every length (R81, R86). -/
def payloadOpcodes : List Nat := [0x02, 0x20, 0x24, 0x25, 0x40, 0x44]

/-- A command laid out without operands is of format N, or of format P with an empty payload. -/
theorem opcode_of_no_operand {nb : NonceBytes} {i : Instr} (h : i.operandBytes nb = []) :
    i.opcode.toNat ∈ bareOpcodes ∨ i.opcode.toNat ∈ payloadOpcodes := by
  cases i
  case csNewRecv n => cases nb <;> cases h
  all_goals simp_all [Instr.operandBytes, Instr.opcode, bareOpcodes, payloadOpcodes, bytesBe16]

/-- Only format P lays out a single operand byte. -/
theorem opcode_of_one_operand {nb : NonceBytes} {i : Instr} {b : Byte}
    (h : i.operandBytes nb = [b]) : i.opcode.toNat ∈ payloadOpcodes := by
  cases i
  case csNewRecv n => cases nb <;> cases h
  all_goals simp_all [Instr.operandBytes, Instr.opcode, payloadOpcodes, bytesBe16]

theorem malformedLength_bare {nb : NonceBytes} {p : Packet} (h : p.first.toNat ∈ bareOpcodes) :
    malformedLength nb p ↔ p.rest.length + 1 ≠ 1 := by
  simp only [bareOpcodes, List.mem_cons, List.not_mem_nil, or_false] at h
  rcases h with h | h | h | h | h | h | h | h | h | h | h | h | h <;> simp [malformedLength, h]

theorem not_malformedLength_payload {nb : NonceBytes} {p : Packet}
    (h : p.first.toNat ∈ payloadOpcodes) : ¬ malformedLength nb p := by
  simp only [payloadOpcodes, List.mem_cons, List.not_mem_nil, or_false] at h
  rcases h with h | h | h | h | h | h <;> simp [malformedLength, h]

theorem not_malformedLength_illegal {nb : NonceBytes} {p : Packet}
    (h : illegalOpcode p.first.toNat) : ¬ malformedLength nb p := by
  unfold illegalOpcode at h
  rintro (⟨hbare, -⟩ | ⟨op, -⟩ | ⟨op, -⟩ | ⟨op, -⟩ | ⟨op, -⟩ | ⟨op, -⟩)
  · simp only [List.mem_cons, List.not_mem_nil, or_false] at hbare
    omega
  all_goals omega

/-- Format P refuses no packet. -/
theorem decode_payload {nb : NonceBytes} {p : Packet} (h : p.first.toNat ∈ payloadOpcodes) :
    ∃ i, decode nb p = .ok i := by
  simp only [payloadOpcodes, List.mem_cons, List.not_mem_nil, or_false] at h
  rcases h with h | h | h | h | h | h <;> simp [decode, h, parseP]

/-- Format M refuses a packet without its field bytes or without the key bytes that `KLEN` says
(R81). -/
theorem parseM_error (f : BitVec 16 → List Byte → List Byte → Instr) (r : List Byte) (e : Error) :
    parseM f r = .error e ↔ e = .malformedCommand ∧
      (r.length + 1 < 5 ∨ r.length + 1 < 5 + beNat [r.getD 2 0, r.getD 3 0]) := by
  rcases r with _ | ⟨o1, _ | ⟨o0, _ | ⟨k1, _ | ⟨k0, body⟩⟩⟩⟩
  case cons.cons.cons.cons =>
    have hrefused : (o1 :: o0 :: k1 :: k0 :: body).length + 1 < 5 ∨
        (o1 :: o0 :: k1 :: k0 :: body).length + 1 < 5 + beNat [k1, k0] ↔
        ¬ (be16 k1 k0).toNat ≤ body.length := by
      simp only [List.length_cons, beNat_pair]
      omega
    simp only [List.getD_cons_succ, List.getD_cons_zero, hrefused]
    by_cases hfits : (be16 k1 k0).toNat ≤ body.length <;> simp [parseM, hfits, eq_comm]
  all_goals simp [parseM, eq_comm]

/-- Each row refuses the lengths that R81 does not admit for its format. -/
theorem OpcodeRow.malformedCommand_iff {nb : NonceBytes} {p : Packet}
    {parse : List Byte → Except Error Instr} (h : OpcodeRow nb p.first parse)
    (hpayload : p.first.toNat ∉ payloadOpcodes) :
    parse p.rest = .error .malformedCommand ↔ malformedLength nb p := by
  cases h with
  | bare i opcode layout =>
    have hbare : p.first.toNat ∈ bareOpcodes :=
      opcode ▸ (opcode_of_no_operand layout).resolve_right (opcode ▸ hpayload)
    rw [parseN_error, malformedLength_bare hbare, eq_self, true_and]
  | payload f opcode layout =>
    exact absurd (opcode [0] ▸ opcode_of_one_operand (layout [0])) hpayload
  | squeeze opcode => simp [parseC_error, malformedLength, opcode]
  | hash opcode => simp [parseH_error, malformedLength, opcode]
  | mac opcode => simp [parseM_error, malformedLength, opcode]
  | newRecv opcode => simp [parseQ_error, malformedLength, opcode]
  | abNewRecv opcode => simp [parseR_error, malformedLength, opcode]
  | absent opcode => exact iff_of_false nofun (not_malformedLength_illegal opcode)

theorem decode_malformedCommand_iff (nb : NonceBytes) (p : Packet) :
    decode nb p = .error .malformedCommand ↔ malformedLength nb p := by
  by_cases hpayload : p.first.toNat ∈ payloadOpcodes
  · obtain ⟨i, hi⟩ := decode_payload (nb := nb) hpayload
    exact iff_of_false (hi ▸ nofun) (not_malformedLength_payload hpayload)
  · obtain ⟨parse, hrow, hparse⟩ := decode_row nb p
    rw [hparse]
    exact hrow.malformedCommand_iff hpayload

/-- Settles O5: the step of an idle core raises what the decoder finds. -/
theorem malformedPacketsRaise : Obligations.MalformedPacketsRaise := by
  refine ⟨decode_malformedCommand_iff, fun s p rest hidle hport hmalformed => ?_⟩
  rw [step_of_decode_error hidle hport ((decode_malformedCommand_iff _ p).2 hmalformed), hidle]
  rfl

end Sys2Proof.Machine
end
